-- ==== Sys2Proof/Word.lean ====
section
/-! DEFINITION. The two widths of the block: registers, ALU and PC of 16 bits, memory cells and operands of 8 bits
(spec/00_scope.md R5). -/

namespace Sys2Proof

/-- A register's contents: `W = 16` bits, unsigned (10_state.md R14; D1). -/
abbrev Word := BitVec 16

/-- A memory cell's contents, and an opcode or operand byte: 8 bits (10_state.md R27; D13). -/
abbrev Byte := BitVec 8

end Sys2Proof
end

