-- ==== Sys2Proof/Config.lean ====
section
/-! DEFINITION. The implementation parameters of spec/00_scope.md R5 and the opcode values of spec/30_encoding.md R52.
The spec fixes every one of them for this hardware, and leaves no value open, so there is no free value here. -/

namespace Sys2Proof

/-- `MEM_SIZE`: the number of memory cells (R5). -/
abbrev memSize : Nat := 20

/-- `NUM_REGS`: the number of registers (R5). -/
abbrev numRegs : Nat := 3

/-- `INSN_STRIDE`: what the step adds to the PC after a non-HALT instruction (R5). -/
abbrev insnStride : Word := 3

/-- The opcode map (R52). -/
def opLoad : Byte := 0x01
/-- The opcode map (R52). -/
def opStore : Byte := 0x02
/-- The opcode map (R52). -/
def opAdd : Byte := 0x03
/-- The opcode map (R52). -/
def opSub : Byte := 0x04
/-- `HALT_OPCODE` (R5, R52). -/
def opHalt : Byte := 0xFF

/-- The five recognized opcode values; the other 251 are the unrecognized ones (R52, R53). -/
def recognizedOpcodes : List Byte := [opLoad, opStore, opAdd, opSub, opHalt]

end Sys2Proof
end

