-- ==== Sys2Proof/Machine/State.lean ====
section
/-! DEFINITION. The state of the block: exactly what spec/10_state.md R13 lists. Plain data. -/

namespace Sys2Proof.Machine

/-- The run-status indicator (10_state.md R22). -/
inductive Status where
  /-- No run is in progress: after reset and after a HALT. -/
  | idle
  /-- A run started by the host is in progress. -/
  | running
  /-- A fault has occurred; only reset leaves this value. -/
  | faulted
deriving DecidableEq, Repr

/-- The address space of a fault: `MEM` or `REG` (00_scope.md R10; 60_exceptions.md R79). -/
inductive Space where
  | mem
  | reg
deriving DecidableEq, Repr

/-- What `raise OutOfBounds(space, index)` carries (00_scope.md R10). -/
structure OutOfBounds where
  space : Space
  index : Nat
deriving DecidableEq, Repr

/-- The fault record `(code, space, index, fpc)` (10_state.md R23). -/
structure FaultRecord where
  /-- The numeric fault code (60_exceptions.md R79). -/
  code : Nat
  space : Space
  /-- The offending cell or register index, "as an unbounded natural number". -/
  index : Nat
  /-- The value of `x[0]` at the start of the faulting step. -/
  fpc : Word
deriving DecidableEq, Repr

/-- The index of a register: 0, 1 or 2 (10_state.md R14). -/
abbrev RegIdx := Fin numRegs

/-- Memory as (address, byte) pairs; a cell that is not listed holds 0, its reset value (10_state.md R29; log 6). The
canonical form is `Memory.wf` in Machine/Ops.lean. -/
abbrev Memory := List Host.Cell

/-- The whole architectural state (10_state.md R13). -/
structure State where
  /-- `x[0]` (the PC), `x[1]`, `x[2]`. -/
  regs : Vector Word numRegs
  /-- `mem[0..19]`. -/
  mem : Memory
  /-- The run-status indicator (R22). -/
  status : Status
  /-- The fault record, or none (R23). -/
  fault : Option FaultRecord
deriving DecidableEq, Repr

/-- Why `step` answers no next state: the block takes a step only while it is RUNNING (40_execution_cycle.md R59). An
out-of-range index is none of these: it is a next state with status FAULTED (60_exceptions.md R81; log 1). -/
inductive Fault where
  /-- Raised by `step` in IDLE, where the block waits for the host (60_exceptions.md R93). Safe: no step is made up (log 2). -/
  | noStepInIdle
  /-- Raised by `step` in FAULTED, where the block takes no step (60_exceptions.md R85). Safe: no step is made up (log 2). -/
  | noStepInFaulted
deriving DecidableEq, Repr

/-- Why an instruction has no meaning in the model. -/
inductive Refusal where
  /-- Kept for an arm of `exec` without a meaning; no arm of this model uses it. Safe: the machine stops. -/
  | notModelled (mnemonic : String)
deriving DecidableEq, Repr

/-- The state after reset: every register and cell 0, IDLE, no fault record (10_state.md R29; 70_reset_and_hazards.md R94). -/
def State.reset : State where
  regs := #v[0, 0, 0]
  mem := []
  status := .idle
  fault := none

end Sys2Proof.Machine
end

