-- ==== Sys2Proof/Machine/Ops.lean ====
section
/-! DEFINITION. The named operations over registers and memory (spec/00_scope.md R8, R9; spec/20_memory.md R32 to R35),
taking a fault (spec/60_exceptions.md R81), and the end of a step (spec/40_execution_cycle.md R65). -/

namespace Sys2Proof.Machine

/-! ### Registers -/

/-- `x[i]` (00_scope.md R8). No register is hardwired (10_state.md R18). -/
def State.x (s : State) (i : RegIdx) : Word :=
  s.regs[i]

/-- `x[i] <- v` (00_scope.md R8). -/
def State.setX (s : State) (i : RegIdx) (v : Word) : State :=
  { s with regs := s.regs.set i v }

/-- `pc`, "another name for `x[0]`" (00_scope.md R8). -/
def State.pc (s : State) : Word :=
  s.x 0

/-! ### The other fields -/

/-- Replace memory. -/
def State.setMem (s : State) (m : Memory) : State :=
  { s with mem := m }

/-- `status <- st` (10_state.md R22). -/
def State.setStatus (s : State) (st : Status) : State :=
  { s with status := st }

/-! ### Byte order -/

/-- `v & 0xFF` (20_memory.md R35). -/
def lowByte (v : Word) : Byte :=
  v.setWidth 8

/-- `v >> 8` (20_memory.md R35). -/
def highByte (v : Word) : Byte :=
  (v >>> 8).setWidth 8

/-- `(hi << 8) | lo` (20_memory.md R34). -/
def joinBytes (hi lo : Byte) : Word :=
  (hi.setWidth 16 <<< 8) ||| lo.setWidth 16

/-! ### The cells, unchecked -/

/-- The byte held at an address; an address that is not listed holds 0. -/
def Memory.read (m : Memory) (a : Nat) : Byte :=
  (List.lookup a m).getD 0

/-- Take every entry for an address out. -/
def Memory.unlist (m : Memory) (a : Nat) : Memory :=
  m.filter fun c => c.1 != a

/-- Put an entry in front of the first entry with a higher address. -/
def Memory.enlist : Memory → Nat → Byte → Memory
  | [], a, v => [(a, v)]
  | c :: m, a, v => if a < c.1 then (a, v) :: c :: m else c :: Memory.enlist m a v

/-- `mem[a] <- v`, keeping the canonical form: a 0 is not listed. -/
def Memory.write (m : Memory) (a : Nat) (v : Byte) : Memory :=
  if v = 0 then m.unlist a else (m.unlist a).enlist a v

/-- The canonical form: addresses strictly rising, every address one of the 20 cells, no entry that equals what an unlisted
cell reads as (log 6). -/
abbrev Memory.wf (m : Memory) : Prop :=
  m.Pairwise (fun c c' => c.1 < c'.1) ∧ ∀ c ∈ m, c.1 < memSize ∧ c.2 ≠ 0

/-! ### The access primitives -/

/-- `MemRead(a, 1)` (20_memory.md R32). -/
def Memory.read1 (m : Memory) (a : Nat) : Except OutOfBounds Byte :=
  if memSize ≤ a then .error ⟨.mem, a⟩ else .ok (m.read a)

/-- `MemWrite(a, 1, v)` (20_memory.md R33). -/
def Memory.write1 (m : Memory) (a : Nat) (v : Byte) : Except OutOfBounds Memory :=
  if memSize ≤ a then .error ⟨.mem, a⟩ else .ok (m.write a v)

/-- `MemRead(a, 2)`: the lower index is checked first, both before the value is formed (20_memory.md R34). -/
def Memory.read2 (m : Memory) (a : Nat) : Except OutOfBounds Word :=
  if memSize ≤ a then .error ⟨.mem, a⟩
  else if memSize ≤ a + 1 then .error ⟨.mem, a + 1⟩
  else .ok (joinBytes (m.read (a + 1)) (m.read a))

/-- `MemWrite(a, 2, v)`: both indices are checked before either cell is written, low cell first (20_memory.md R35). -/
def Memory.write2 (m : Memory) (a : Nat) (v : Word) : Except OutOfBounds Memory :=
  if memSize ≤ a then .error ⟨.mem, a⟩
  else if memSize ≤ a + 1 then .error ⟨.mem, a + 1⟩
  else .ok ((m.write a (lowByte v)).write (a + 1) (highByte v))

/-! ### Taking a fault -/

/-- `code(MEM) = 1`, `code(REG) = 2` (60_exceptions.md R79, R81). -/
def faultCode : Space → Nat
  | .mem => 1
  | .reg => 2

/-- Fault entry (60_exceptions.md R81), applied to the state at the start of the step: no register or cell changes, the
PC stays at the faulting instruction. There is no handler, and no return from a fault (R85). -/
def State.takeFault (s : State) (e : OutOfBounds) : State :=
  { s with status := .faulted, fault := some ⟨faultCode e.space, e.space, e.index, s.pc⟩ }

/-- The outcome of an execute phase that started in `s`: the state it leaves, or the fault it raised, taken. "A `raise`
anywhere in the step ends it at once" (40_execution_cycle.md R59). -/
def complete (s : State) : Except OutOfBounds State → Host.Outcome State Fault Refusal
  | .ok t => .next t
  | .error e => .next (s.takeFault e)

/-! ### The end of a step -/

/-- `x[0] <- trunc_16(x[0] + 3)`, on the value the instruction left (40_execution_cycle.md R65). -/
def State.incrementPc (s : State) : State :=
  s.setX 0 (s.pc + insnStride)

/-- Step 5 of R59 is reached unless the instruction ended the step: a HALT leaves IDLE, a fault FAULTED, and every other
instruction leaves RUNNING (log 7). -/
def State.finishStep (s : State) : State :=
  if s.status = .running then s.incrementPc else s

/-- `finishStep` after an instruction. -/
def finishOutcome : Host.Outcome State Fault Refusal → Host.Outcome State Fault Refusal
  | .next s => .next s.finishStep
  | .fault r => .fault r
  | .refused r => .refused r

end Sys2Proof.Machine
end

