-- ==== Sys2Proof/Machine/Flags.lean ====
section
/-! DEFINITION. The 16-bit ALU (spec/42_arithmetic.md R72). The block has no flag: "ADD and SUB report no carry, borrow,
overflow, zero or sign" (spec/10_state.md R24), so a result is all an ALU operation gives. -/

namespace Sys2Proof.Machine

/-- `(a + b) mod 2^16`; the carry is "discarded and recorded nowhere" (R70). -/
def aluAdd (a b : Word) : Word :=
  BitVec.ofNat 16 (a.toNat + b.toNat)

/-- `(a - b) mod 2^16`, the non-negative remainder of the exact difference; the borrow is discarded (R71, 00_scope.md R7). -/
def aluSub (a b : Word) : Word :=
  BitVec.ofInt 16 ((a.toNat : Int) - (b.toNat : Int))

end Sys2Proof.Machine
end

