-- ==== Sys2Proof/Machine/Operands.lean ====
section
/-! DEFINITION. The two operand forms of spec/30_encoding.md R51: a register index and an absolute byte address. There is no
immediate operand and no other addressing mode. -/

namespace Sys2Proof.Machine

/-- A register operand: the byte "used as it stands" selects `x[operand]` (10_state.md R17); 3 or more names no register and
raises `OutOfBounds(REG, value)` (60_exceptions.md R80). -/
def registerOperand (b : Byte) : Except OutOfBounds RegIdx :=
  if h : b.toNat < numRegs then .ok ⟨b.toNat, h⟩ else .error ⟨.reg, b.toNat⟩

/-- A memory operand: the absolute byte address, checked by the access that uses it (30_encoding.md R51; 60_exceptions.md R83). -/
def memoryOperand (b : Byte) : Nat :=
  b.toNat

end Sys2Proof.Machine
end

