-- ==== Sys2Proof/Machine/Arithmetic.lean ====
section
/-! DEFINITION. The execute phases of ADD and SUB (spec/42_arithmetic.md). The step's PC increment follows them. -/

namespace Sys2Proof.Machine

/-- The shape ADD and SUB share: `d` is checked first, then the second source, and both are read before `x[d]` is written
(R70, R71, R84; 70_reset_and_hazards.md R103). -/
def aluInto (f : Word → Word → Word) (d n : Byte) (s : State) : Except OutOfBounds State := do
  let i ← registerOperand d
  let j ← registerOperand n
  return s.setX i (f (s.x i) (s.x j))

/-- `ADD d, n`: `x[d] <- (x[d] + x[n]) mod 2^16` (R70). -/
def execAdd (d n : Byte) (s : State) : Host.Outcome State Fault Refusal :=
  complete s (aluInto aluAdd d n s)

/-- `SUB d, n`: `x[d] <- (x[d] - x[n]) mod 2^16` (R71). -/
def execSub (d n : Byte) (s : State) : Host.Outcome State Fault Refusal :=
  complete s (aluInto aluSub d n s)

end Sys2Proof.Machine
end

