-- ==== Sys2Proof/Machine/Control.lean ====
section
/-! DEFINITION. The execute phases of HALT and of an unrecognized opcode (spec/43_control.md). -/

namespace Sys2Proof.Machine

/-- `HALT`: `status <- IDLE`; nothing else is written, and no PC increment follows (R74). -/
def execHalt (s : State) : Host.Outcome State Fault Refusal :=
  complete s (.ok (s.setStatus .idle))

/-- `UNRECOGNIZED op, arg1, arg2`: nothing; the step's PC increment follows (R75). -/
def execUnrecognized (_op _arg1 _arg2 : Byte) (s : State) : Host.Outcome State Fault Refusal :=
  complete s (.ok s)

end Sys2Proof.Machine
end

