-- ==== Sys2Proof/Machine/LoadStore.lean ====
section
/-! DEFINITION. The execute phases of LOAD and STORE (spec/41_load_store.md). The step's PC increment follows them. -/

namespace Sys2Proof.Machine

/-- `LOAD r, a`: the memory check comes before the register check (R67, R84). -/
def execLoad (r a : Byte) (s : State) : Host.Outcome State Fault Refusal :=
  complete s do
    let v ← s.mem.read2 (memoryOperand a)
    let i ← registerOperand r
    return s.setX i v

/-- `STORE r, a`: the register check comes before the memory check (R68, R84). -/
def execStore (r a : Byte) (s : State) : Host.Outcome State Fault Refusal :=
  complete s do
    let i ← registerOperand r
    let m ← s.mem.write2 (memoryOperand a) (s.x i)
    return s.setMem m

end Sys2Proof.Machine
end

