-- ==== Sys2Proof/Syntax.lean ====
section
/-! DEFINITION. The instructions, one constructor per row of spec/opcode_table.json (spec/30_encoding.md R50, R52). -/

namespace Sys2Proof

/-- An instruction as the decoder hands it to the machine. Operands are the bytes "used as they stand" (R51): every value
0 to 255 is an instruction, and an operand that names no register or cell faults when it executes (R54). -/
inductive Instr where
  /-- `LOAD r, a`: destination register index, source memory address (41_load_store.md R67). -/
  | load (r a : Byte)
  /-- `STORE r, a`: source register index, destination memory address (41_load_store.md R68). -/
  | store (r a : Byte)
  /-- `ADD d, n`: destination and first source index, second source index (42_arithmetic.md R70). -/
  | add (d n : Byte)
  /-- `SUB d, n`: destination and minuend index, subtrahend index (42_arithmetic.md R71). -/
  | sub (d n : Byte)
  /-- `HALT`: no operands (43_control.md R74). -/
  | halt
  /-- `UNRECOGNIZED op, arg1, arg2`: any other opcode value, with its two ignored operand bytes (43_control.md R75). -/
  | unrecognized (op arg1 arg2 : Byte)
deriving DecidableEq, Repr

end Sys2Proof
end

