-- ==== Sys2Proof/Machine/Dispatch.lean ====
section
/-! DEFINITION. Dispatch on the opcode (spec/40_execution_cycle.md R63): the execute phase of each instruction. -/

namespace Sys2Proof.Machine

def exec (i : Instr) (s : State) : Host.Outcome State Fault Refusal :=
  match i with
  | .load r a => Sys2Proof.Machine.execLoad r a s
  | .store r a => Sys2Proof.Machine.execStore r a s
  | .add d n => Sys2Proof.Machine.execAdd d n s
  | .sub d n => Sys2Proof.Machine.execSub d n s
  | .halt => Sys2Proof.Machine.execHalt s
  | .unrecognized op arg1 arg2 => Sys2Proof.Machine.execUnrecognized op arg1 arg2 s

end Sys2Proof.Machine
end

