-- ==== Sys2Proof/WellFormed.lean ====
section
/-! DEFINITION. Which terms of `Instr` stand for an instruction of the encoding. No operand value is checked (R54); the one
check is that an unrecognized opcode is none of the five recognized values (spec/30_encoding.md R52, R53). -/

namespace Sys2Proof

/-- The check (R53: the opcode of format X is 0x00 or 0x05 to 0xFE; R54: "No field of any format is reserved"). -/
def Instr.wellFormed : Instr → Bool
  | .load _ _ => true
  | .store _ _ => true
  | .add _ _ => true
  | .sub _ _ => true
  | .halt => true
  | .unrecognized op _ _ => !recognizedOpcodes.contains op

end Sys2Proof
end

