-- ==== Sys2Proof/Decode.lean ====
section
/-! DEFINITION. The decoder of spec/30_encoding.md R56 on a list of bytes, and after it the encoder written from the
opcode map of R52. -/

namespace Sys2Proof

/-- Why a list of bytes holds no whole instruction. The block itself never meets these: its fetch reads as many cells as the
opcode asks for, or faults (40_execution_cycle.md R60, R62; log 19). -/
inductive DecodeError where
  /-- No byte at all. Raised by `decode`; safe, no instruction is made up. -/
  | noOpcode
  /-- A non-HALT opcode with fewer than two bytes after it. Raised by `decode`; safe, no operand is made up. -/
  | operandsMissing
deriving DecidableEq, Repr

/-- "Instruction length is decided by the opcode byte alone" (R49). -/
def instrLength (b0 : Byte) : Nat :=
  if b0 = opHalt then 1 else 3

/-- `Decode(b0, b1, b2)` for an opcode that is not HALT (R56). -/
def decodeOperands (b0 b1 b2 : Byte) : Instr :=
  if b0 = opLoad then .load b1 b2
  else if b0 = opStore then .store b1 b2
  else if b0 = opAdd then .add b1 b2
  else if b0 = opSub then .sub b1 b2
  else .unrecognized b0 b1 b2

/-- The decoder on bytes: the instruction and the bytes after it. It "reads the opcode first and the operands only if the
opcode is not HALT" (R56). -/
def decode : List Byte → Except DecodeError (Instr × List Byte)
  | [] => .error .noOpcode
  | b0 :: rest =>
    if b0 = opHalt then .ok (.halt, rest)
    else match rest with
      | b1 :: b2 :: rest' => .ok (decodeOperands b0 b1 b2, rest')
      | _ => .error .operandsMissing

/-- The bytes of an instruction, the opcode first (R48, R50, R52). -/
def encode : Instr → List Byte
  | .load r a => [opLoad, r, a]
  | .store r a => [opStore, r, a]
  | .add d n => [opAdd, d, n]
  | .sub d n => [opSub, d, n]
  | .halt => [opHalt]
  | .unrecognized op arg1 arg2 => [op, arg1, arg2]

/-- Byte `j` (the opcode is byte 0) of an instruction that the table writes as a number of `n` bytes. The table's number is
`insn = b0 ++ b1 ++ b2` with the opcode in its most significant byte (R48; log 4). A byte past the number is 0. -/
def tableByte (n w j : Nat) : Byte :=
  if j < n then BitVec.ofNat 8 (w >>> (8 * (n - 1 - j))) else 0

/-- The three bytes an instruction of the opcode table lays in memory, lowest address first. -/
def tableBytes (nbits w : Nat) : List Byte :=
  [tableByte (nbits / 8) w 0, tableByte (nbits / 8) w 1, tableByte (nbits / 8) w 2]

/-- The instruction the decoder reads from the table's number `w` of `nbits` bits (log 4). -/
def decodeTableWord (nbits w : Nat) : Option Instr :=
  match decode (tableBytes nbits w) with
  | .ok (i, _) => some i
  | .error _ => none

end Sys2Proof
end

