-- ==== Sys2Proof/Machine/Fetch.lean ====
section
/-! DEFINITION. Fetching and decoding the instruction at the PC (spec/40_execution_cycle.md R59, R60 to R62), and placing
an instruction where the next fetch finds it. -/

namespace Sys2Proof.Machine

/-- Steps 1 to 3 of R59 and the decoding of step 4: the opcode cell, the HALT test before any operand cell is read, then the
two operand cells in order. `p + 1` and `p + 2` are unbounded. -/
def fetch (s : State) : Except OutOfBounds Instr := do
  let p := s.pc.toNat
  let b0 ← s.mem.read1 p
  if b0 = opHalt then
    return .halt
  else
    let b1 ← s.mem.read1 (p + 1)
    let b2 ← s.mem.read1 (p + 2)
    return decodeOperands b0 b1 b2

/-- Write bytes to consecutive cells, the first at the lowest address. -/
def Memory.writeBytes : Memory → Nat → List Byte → Memory
  | m, _, [] => m
  | m, a, b :: bs => Memory.writeBytes (m.write a b) (a + 1) bs

/-- The bytes of an opcode-table word that the fetch reads: the opcode alone for HALT, three bytes for any other opcode. -/
def fetchedTableBytes (nbits w : Nat) : List Byte :=
  (tableBytes nbits w).take (instrLength (tableByte (nbits / 8) w 0))

/-- Where a fetch of `n` bytes can find them: at the PC, or at 0 where the PC leaves no room for them (log 5). -/
def fetchSlot (s : State) (n : Nat) : Word :=
  if s.pc.toNat + n ≤ memSize then s.pc else 0

/-- A running state whose next fetch reads these bytes. -/
def State.placeAtPc (s : State) (bs : List Byte) : State :=
  let p := fetchSlot s bs.length
  ((s.setX 0 p).setMem (s.mem.writeBytes p.toNat bs)).setStatus .running

end Sys2Proof.Machine
end

