-- ==== Sys2Proof/Machine/Step.lean ====
section
/-! DEFINITION. One step of the block (spec/40_execution_cycle.md R59). -/

namespace Sys2Proof.Machine

/-- "The block takes a step only while `status = RUNNING`" (R59): fetch and decode, the execute phase, then the PC increment
unless the instruction ended the step. A fault of the fetch is taken like any other (R60, R62). -/
def step (s : State) : Host.Outcome State Fault Refusal :=
  match s.status with
  | .idle => .fault .noStepInIdle
  | .faulted => .fault .noStepInFaulted
  | .running =>
    match fetch s with
    | .error e => .next (s.takeFault e)
    | .ok i => finishOutcome (exec i s)

/-- `s` with the opcode table's word stored where the next fetch reads it and the block RUNNING: it stands for the host's
LOAD_IMAGE and RUN (70_reset_and_hazards.md R102; log 3). -/
def State.withFetchWord (s : State) (nbits w : Nat) : State :=
  s.placeAtPc (fetchedTableBytes nbits w)

end Sys2Proof.Machine
end

