-- ==== Sys2Proof/Machine/Assembler.lean ====
section
/-! DEFINITION. The assembler notation of spec/30_encoding.md R57: from text to a 20-byte image. Notation only: no behaviour of
the block depends on it (D11). What R57 leaves to taste (spacing, the padding byte, what is rejected) is log 17. -/

namespace Sys2Proof.Machine

/-- What one line of the notation places. -/
inductive AsmItem where
  | instr (i : Instr)
  /-- `.byte v1, v2, …`: "the bytes as written". -/
  | bytes (bs : List Byte)
deriving DecidableEq, Repr

/-- The bytes an item places. -/
def AsmItem.toBytes : AsmItem → List Byte
  | .instr i => encode i
  | .bytes bs => bs

/-- "An assembler places each instruction or `.byte` at the next address, starting at 0, and always emits all 20 bytes of the
image" (R57). The rest is 0; more than 20 bytes are no image. -/
def assembleItems (items : List AsmItem) : Option (List Byte) :=
  let bs := items.flatMap AsmItem.toBytes
  if bs.length ≤ memSize then some (bs ++ List.replicate (memSize - bs.length) 0) else none

/-! ### Text -/

/-- A word between spaces and commas, or a comma. -/
inductive AsmToken where
  | word (cs : List Char)
  | comma
deriving DecidableEq, Repr

/-- End the word whose letters, in reverse, are `acc`. -/
def flushWord (acc : List Char) (rest : List AsmToken) : List AsmToken :=
  if acc.isEmpty then rest else .word acc.reverse :: rest

/-- The tokens of a line; `acc` holds the current word in reverse. A `;` starts a comment. -/
def tokenizeFrom : List Char → List Char → List AsmToken
  | acc, [] => flushWord acc []
  | acc, c :: cs =>
    if c = ';' then flushWord acc []
    else if c = ',' then flushWord acc (.comma :: tokenizeFrom [] cs)
    else if c = ' ' || c = '\t' || c = '\r' then flushWord acc (tokenizeFrom [] cs)
    else tokenizeFrom (c :: acc) cs

/-- The lines of a text; `acc` holds the current line in reverse. -/
def linesFrom : List Char → List Char → List (List Char)
  | acc, [] => [acc.reverse]
  | acc, c :: cs => if c = '\n' then acc.reverse :: linesFrom [] cs else linesFrom (c :: acc) cs

/-- The value of a decimal or hexadecimal digit. -/
def digitValue (c : Char) : Option Nat :=
  if '0' ≤ c ∧ c ≤ '9' then some (c.toNat - '0'.toNat)
  else if 'a' ≤ c ∧ c ≤ 'f' then some (c.toNat - 'a'.toNat + 10)
  else if 'A' ≤ c ∧ c ≤ 'F' then some (c.toNat - 'A'.toNat + 10)
  else none

/-- Read digits of a base onto the value read so far. -/
def digitsFrom (base : Nat) : Nat → List Char → Option Nat
  | v, [] => some v
  | v, c :: cs =>
    match digitValue c with
    | some d => if d < base then digitsFrom base (v * base + d) cs else none
    | none => none

/-- A number of at least one digit that fits a byte. -/
def parseDigits (base : Nat) (cs : List Char) : Option Byte :=
  if cs.isEmpty then none
  else match digitsFrom base 0 cs with
    | some v => if v < 256 then some (BitVec.ofNat 8 v) else none
    | none => none

/-- "numbers from 0 to 255, in decimal or `0x` hexadecimal" (R57). -/
def parseNumber : List Char → Option Byte
  | '0' :: 'x' :: cs => parseDigits 16 cs
  | cs => parseDigits 10 cs

/-- "`r` followed by its index in decimal: `r0` (also `pc`)"; an index of 3 or more "assembles and faults at execution" (R57). -/
def parseRegister : List Char → Option Byte
  | ['p', 'c'] => some 0
  | 'r' :: cs => parseDigits 10 cs
  | _ => none

/-- `v1, v2, …`. -/
def parseValues : List AsmToken → Option (List Byte)
  | [.word v] => (parseNumber v).map ([·])
  | .word v :: .comma :: rest =>
    match parseNumber v, parseValues rest with
    | some b, some bs => some (b :: bs)
    | _, _ => none
  | _ => none

/-- Two operands and the instruction they make. -/
def parsePair (second : List Char → Option Byte) (mk : Byte → Byte → Instr) : List AsmToken → Option (List AsmItem)
  | [.word u, .comma, .word v] =>
    match parseRegister u, second v with
    | some b1, some b2 => some [.instr (mk b1 b2)]
    | _, _ => none
  | _ => none

/-- One line (R57): nothing, one instruction or one `.byte`. "Mnemonics are case-insensitive." -/
def parseLine : List AsmToken → Option (List AsmItem)
  | [] => some []
  | .comma :: _ => none
  | .word w :: args =>
    if w = ['.', 'b', 'y', 't', 'e'] then (parseValues args).map fun bs => [.bytes bs]
    else
      let m := w.map Char.toUpper
      if m = ['L', 'O', 'A', 'D'] then parsePair parseNumber .load args
      else if m = ['S', 'T', 'O', 'R', 'E'] then parsePair parseNumber .store args
      else if m = ['A', 'D', 'D'] then parsePair parseRegister .add args
      else if m = ['S', 'U', 'B'] then parsePair parseRegister .sub args
      else if m = ['H', 'A', 'L', 'T'] ∧ args = [] then some [.instr .halt]
      else none

/-- All the lines, in order. -/
def parseLines : List (List Char) → Option (List AsmItem)
  | [] => some []
  | l :: ls =>
    match parseLine (tokenizeFrom [] l), parseLines ls with
    | some items, some rest => some (items ++ rest)
    | _, _ => none

/-- The image a text assembles to, one instruction or `.byte` a line (R57). -/
def assembleText (text : List Char) : Option (List Byte) :=
  (parseLines (linesFrom [] text)).bind assembleItems

end Sys2Proof.Machine
end

