-- ==== Sys2Proof/Machine/HostInterface.lean ====
section
/-! DEFINITION. The host's operations (spec/70_reset_and_hazards.md R94, R96 to R100) as functions from a state to the state
they leave and what the host is told (log 9). External termination is not an operation of the model (R101, D14). -/

namespace Sys2Proof.Machine

/-- An operation of the host (R96). -/
inductive HostOp where
  /-- RESET (R94). -/
  | reset
  /-- LOAD_IMAGE(image): the bytes for `mem[0]`, `mem[1]`, … (R97). -/
  | loadImage (image : List Byte)
  /-- RUN (R99). -/
  | run
  /-- INSPECT (R100). -/
  | inspect
deriving DecidableEq, Repr

/-- What INSPECT reads: "every register, every memory cell, `status` and `fault`" (R100). -/
structure View where
  regs : Vector Word numRegs
  /-- `mem[0]` to `mem[19]`, in order. -/
  cells : List Byte
  status : Status
  fault : Option FaultRecord
deriving DecidableEq, Repr

/-- What the host is told. -/
inductive HostReply where
  /-- The operation was admitted and done; RUN was admitted and has started. -/
  | done
  /-- INSPECT's answer. -/
  | inspected (v : View)
  /-- Refused: the operation is not admitted in this status (R96). -/
  | notAdmitted
  /-- Refused: the image's length is not 20 (R98). -/
  | invalidImageSize
deriving DecidableEq, Repr

/-- `InvalidImageSize` is the host-level error of code 3 (R98, D17); the other replies have no code. -/
def HostReply.errorCode : HostReply → Option Nat
  | .done => none
  | .inspected _ => none
  | .notAdmitted => none
  | .invalidImageSize => some 3

/-- The statuses that admit each operation: the table of R96. -/
def HostOp.admitted : HostOp → Status → Bool
  | .reset, .idle => true
  | .reset, .running => false
  | .reset, .faulted => true
  | .loadImage _, .idle => true
  | .loadImage _, .running => false
  | .loadImage _, .faulted => false
  | .run, .idle => true
  | .run, .running => false
  | .run, .faulted => false
  | .inspect, .idle => true
  | .inspect, .running => false
  | .inspect, .faulted => true

/-- INSPECT's answer (R100). -/
def State.view (s : State) : View where
  regs := s.regs
  cells := (List.range memSize).map s.mem.read
  status := s.status
  fault := s.fault

/-- LOAD_IMAGE: "replace all 20 cells" and nothing else (R97); another length is refused and changes nothing (R98). -/
def hostLoadImage (image : List Byte) (s : State) : State × HostReply :=
  if image.length = memSize then (s.setMem (Memory.writeBytes [] 0 image), .done)
  else (s, .invalidImageSize)

/-- RUN's first line, `status <- RUNNING` (R99); its loop is `step` repeated (Machine/Run.lean). -/
def State.startRun (s : State) : State :=
  s.setStatus .running

/-- A host operation: admitted and done, or refused with nothing changed (R96). Where LOAD_IMAGE is not admitted, its length
is not looked at (log 11). -/
def hostOp (op : HostOp) (s : State) : State × HostReply :=
  if op.admitted s.status then
    match op with
    | .reset => (State.reset, .done)
    | .loadImage image => hostLoadImage image s
    | .run => (s.startRun, .done)
    | .inspect => (s, .inspected s.view)
  else (s, .notAdmitted)

end Sys2Proof.Machine
end

