-- ==== Sys2Proof/Machine/Run.lean ====
section
/-! DEFINITION. A run: the step repeated while `status = RUNNING` (spec/40_execution_cycle.md R66;
spec/70_reset_and_hazards.md R99), and the states the block can get to. -/

namespace Sys2Proof.Machine

/-- The state after one step, or the same state where the block takes none. -/
def stepOrStay (s : State) : State :=
  match step s with
  | .next t => t
  | .fault _ => s
  | .refused _ => s

/-- At most `n` steps of the loop `while status = RUNNING: Step()` (R99). -/
def runFor : Nat → State → State
  | 0, s => s
  | n + 1, s => runFor n (stepOrStay s)

/-- RUN, called in the IDLE state `s`, returns to the host in `t`: after finitely many steps `status` is no longer RUNNING
(R99, R106). -/
def RunReturns (s t : State) : Prop :=
  s.status = .idle ∧ ∃ n, runFor n s.startRun = t ∧ t.status ≠ .running

/-- RUN, called in the IDLE state `s`, never returns: "an infinite run" with no end state (R66, R101). -/
def RunNeverReturns (s : State) : Prop :=
  s.status = .idle ∧ ∀ n, (runFor n s.startRun).status = .running

/-- The states the block can be in: constructed, then host operations and steps in any order the statuses admit. -/
inductive Reachable : State → Prop where
  | constructed : Reachable State.reset
  | byHost (op : HostOp) {s : State} : Reachable s → Reachable (hostOp op s).1
  | byStep {s t : State} : Reachable s → step s = .next t → Reachable t

end Sys2Proof.Machine
end

