-- ==== Sys2Proof/Safety.lean ====
section
/-! DEFINITION. What the claims call a sound state, a legal fault record and a result. -/

namespace Sys2Proof.Machine

/-- The records a fault can leave (spec/60_exceptions.md R79, R80, R82): in MEM, an opcode fetch from outside memory, an
operand fetch at 18 or 19, or a data access; in REG, an operand byte that names no register. -/
def FaultRecord.Legal (f : FaultRecord) : Prop :=
  (f.space = .mem ∧ f.code = 1 ∧
    (memSize ≤ f.fpc.toNat ∧ f.index = f.fpc.toNat ∨
     (f.fpc.toNat = 18 ∨ f.fpc.toNat = 19) ∧ f.index = memSize ∨
     f.fpc.toNat ≤ 17 ∧ memSize ≤ f.index ∧ f.index ≤ 255)) ∨
  (f.space = .reg ∧ f.code = 2 ∧ f.fpc.toNat ≤ 17 ∧ numRegs ≤ f.index ∧ f.index ≤ 255)

/-- The invariant of the block: memory in canonical form within the 20 cells, a fault record exactly in FAULTED
(spec/10_state.md R22, R23), the record one of those a fault can leave, and the PC still at the faulting instruction
(spec/60_exceptions.md R81). -/
structure State.Inv (s : State) : Prop where
  mem_wf : s.mem.wf
  faulted_iff : s.status = .faulted ↔ s.fault ≠ none
  record_legal : ∀ f, s.fault = some f → f.Legal
  record_at_pc : ∀ f, s.fault = some f → f.fpc = s.pc

/-- `t` is the result of a run from `s`: "A claim about a program's result is a claim about INSPECT after a RUN that ended in
IDLE" (spec/70_reset_and_hazards.md R100). A run that faults or never ends has no result (spec/93_implementation_defined.md I3, I11). -/
def RunResult (s t : State) : Prop :=
  RunReturns s t ∧ t.status = .idle

/-- A safe run: no state it passes through is FAULTED. -/
def RunSafe (s : State) : Prop :=
  ∀ n, (runFor n s.startRun).status ≠ .faulted

end Sys2Proof.Machine
end

