-- ==== Sys2Proof/Certificates/Slice0/Obligations.lean ====
section
/-! DEFINITION. The statements for the provers. They are written in the spec's own terms: bytes at addresses, register
contents as numbers modulo 2^16, the fault record's four fields. -/

open Sys2Proof Sys2Proof.Machine

namespace Sys2Proof.Claims

/-! ### The terms of the statements -/

/-- The number held little-endian in cells `a` and `a + 1`. -/
def wordAt (s : State) (a : Nat) : Nat :=
  (s.mem.read (a + 1)).toNat * 256 + (s.mem.read a).toNat

/-- Cells `p`, `p + 1`, … exist and hold these bytes. -/
abbrev BytesAt (s : State) (p : Nat) (bs : List Byte) : Prop :=
  p + bs.length ≤ 20 ∧ ∀ k, (h : k < bs.length) → s.mem.read (p + k) = bs[k]

/-- The block is RUNNING and the cells at its PC hold the encoding of the well-formed instruction `i`. -/
abbrev AtInstr (s : State) (i : Instr) : Prop :=
  s.status = .running ∧ i.wellFormed = true ∧ BytesAt s (s.x 0).toNat (encode i)

/-- Every register, cell, `status` and `fault` but register `d` are as before. -/
def SameButReg (s t : State) (d : RegIdx) : Prop :=
  (∀ j, j ≠ d → t.x j = s.x j) ∧ (∀ a, t.mem.read a = s.mem.read a) ∧ t.status = s.status ∧ t.fault = s.fault

/-- Every register, `status`, `fault` and cell but the two stored cells `a` and `a + 1` are as before. -/
def SameButCells (s t : State) (a : Nat) : Prop :=
  (∀ j, t.x j = s.x j) ∧ (∀ b, b ≠ a → b ≠ a + 1 → t.mem.read b = s.mem.read b) ∧ t.status = s.status ∧
    t.fault = s.fault

/-- What cell `b` holds once a STORE of `v` to `a` has run from `s`: the low byte of `v` at `a`, the high byte at `a + 1`
(41_load_store.md R68), every other cell as in `s`. -/
def cellAfterStore (s : State) (v : Word) (a b : Nat) : Byte :=
  if b = a then BitVec.ofNat 8 (v.toNat % 256)
  else if b = a + 1 then BitVec.ofNat 8 (v.toNat / 256)
  else s.mem.read b

/-- `t` is `s` after fault entry (60_exceptions.md R81): FAULTED, the record `(code, space, index, x[0])`, every register and
cell, the PC among them, as before. -/
def FaultTaken (s t : State) (code : Nat) (space : Space) (index : Nat) : Prop :=
  t.status = .faulted ∧ t.fault = some ⟨code, space, index, s.x 0⟩ ∧ (∀ j, t.x j = s.x j) ∧
    ∀ a, t.mem.read a = s.mem.read a

/-- `u` is `t` with 3 added to `x[0]` modulo 2^16 and nothing else changed (40_execution_cycle.md R65). -/
def PcPlus3 (t u : State) : Prop :=
  (u.x 0).toNat = ((t.x 0).toNat + 3) % 65536 ∧ SameButReg t u 0

/-- The checks of 60_exceptions.md R84 in its order, for a PC `p` and the bytes `b0`, `b1`, `b2` at `p`, `p + 1`, `p + 2`: the code,
space and index of the first that fails. -/
def firstFailing (p b0 b1 b2 : Nat) : Option (Nat × Space × Nat) :=
  if 20 ≤ p then some (1, .mem, p)
  else if b0 = 0xFF then none
  else if 18 ≤ p then some (1, .mem, 20)
  else if b0 = 0x01 then
    if 20 ≤ b2 then some (1, .mem, b2) else if b2 = 19 then some (1, .mem, 20)
    else if 3 ≤ b1 then some (2, .reg, b1) else none
  else if b0 = 0x02 then
    if 3 ≤ b1 then some (2, .reg, b1)
    else if 20 ≤ b2 then some (1, .mem, b2) else if b2 = 19 then some (1, .mem, 20) else none
  else if b0 = 0x03 ∨ b0 = 0x04 then
    if 3 ≤ b1 then some (2, .reg, b1) else if 3 ≤ b2 then some (2, .reg, b2) else none
  else none

/-- `firstFailing` of the cells at the PC. -/
def firstFailingCheck (s : State) : Option (Nat × Space × Nat) :=
  firstFailing (s.x 0).toNat (s.mem.read (s.x 0).toNat).toNat (s.mem.read ((s.x 0).toNat + 1)).toNat
    (s.mem.read ((s.x 0).toNat + 2)).toNat

/-! ### The pseudocode of 40_execution_cycle.md R59 on natural numbers -/

/-- The state as the pseudocode reads it: "Every value in pseudocode is a natural number" (00_scope.md R6). -/
structure Numbers where
  x : Nat → Nat
  mem : Nat → Nat
  status : Status
  fault : Option (Nat × Space × Nat × Nat)

/-- A machine state read as numbers. -/
def numbers (s : State) : Numbers where
  x := fun i => if h : i < 3 then (s.x ⟨i, h⟩).toNat else 0
  mem := fun a => (s.mem.read a).toNat
  status := s.status
  fault := s.fault.map fun f => (f.code, f.space, f.index, f.fpc.toNat)

/-- `f[i] <- v`. -/
def put (f : Nat → Nat) (i v : Nat) : Nat → Nat :=
  fun j => if j = i then v else f j

/-- `raise` (60_exceptions.md R81). -/
def raiseN (n : Numbers) (code : Nat) (space : Space) (index : Nat) : Numbers :=
  { n with status := .faulted, fault := some (code, space, index, n.x 0) }

/-- `x[0] <- trunc_16(x[0] + 3)`. -/
def incrN (n : Numbers) : Numbers :=
  { n with x := put n.x 0 ((n.x 0 + 3) % 65536) }

/-- `LOAD r, a` and the increment (41_load_store.md R67). -/
def loadN (n : Numbers) (r a : Nat) : Numbers :=
  if 20 ≤ a then raiseN n 1 .mem a
  else if 20 ≤ a + 1 then raiseN n 1 .mem (a + 1)
  else if 3 ≤ r then raiseN n 2 .reg r
  else incrN { n with x := put n.x r ((n.mem (a + 1) <<< 8) ||| n.mem a) }

/-- `STORE r, a` and the increment (41_load_store.md R68). -/
def storeN (n : Numbers) (r a : Nat) : Numbers :=
  if 3 ≤ r then raiseN n 2 .reg r
  else if 20 ≤ a then raiseN n 1 .mem a
  else if 20 ≤ a + 1 then raiseN n 1 .mem (a + 1)
  else incrN { n with mem := put (put n.mem a (n.x r &&& 0xFF)) (a + 1) (n.x r >>> 8) }

/-- `ADD d, s` and the increment (42_arithmetic.md R70). -/
def addN (n : Numbers) (d s : Nat) : Numbers :=
  if 3 ≤ d then raiseN n 2 .reg d
  else if 3 ≤ s then raiseN n 2 .reg s
  else incrN { n with x := put n.x d ((n.x d + n.x s) % 65536) }

/-- `SUB d, s` and the increment (42_arithmetic.md R71). -/
def subN (n : Numbers) (d s : Nat) : Numbers :=
  if 3 ≤ d then raiseN n 2 .reg d
  else if 3 ≤ s then raiseN n 2 .reg s
  else incrN { n with x := put n.x d (((n.x d : Int) - n.x s) % 65536).toNat }

/-- `Step()` (40_execution_cycle.md R59). -/
def stepN (n : Numbers) : Numbers :=
  let p := n.x 0
  if 20 ≤ p then raiseN n 1 .mem p
  else if n.mem p = 0xFF then { n with status := .idle }
  else if 20 ≤ p + 1 then raiseN n 1 .mem (p + 1)
  else if 20 ≤ p + 2 then raiseN n 1 .mem (p + 2)
  else if n.mem p = 0x01 then loadN n (n.mem (p + 1)) (n.mem (p + 2))
  else if n.mem p = 0x02 then storeN n (n.mem (p + 1)) (n.mem (p + 2))
  else if n.mem p = 0x03 then addN n (n.mem (p + 1)) (n.mem (p + 2))
  else if n.mem p = 0x04 then subN n (n.mem (p + 1)) (n.mem (p + 2))
  else incrN n

end Sys2Proof.Claims

open Sys2Proof.Claims

/-! ### Encoding -/

/-- Words written out from the opcode map of 30_encoding.md R52 decode to the instructions they stand for. -/
def Obligations.SpecWordsDecode : Prop :=
  decode [0x01, 0x01, 0x10] = .ok (.load 1 16, []) ∧
  decode [0x02, 0x01, 0x0E] = .ok (.store 1 14, []) ∧
  decode [0x03, 0x01, 0x02] = .ok (.add 1 2, []) ∧
  decode [0x04, 0x00, 0x01] = .ok (.sub 0 1, []) ∧
  decode [0xFF, 0x99] = .ok (.halt, [0x99]) ∧
  decode [0x99, 0x01, 0x02] = .ok (.unrecognized 0x99 1 2, [])

/-- Decoding the encoding of any well-formed instruction, whatever bytes follow it, gives the instruction and those bytes back:
no bit of an operand is dropped (30_encoding.md R50, R52, R56). -/
def Obligations.DecodeInvertsEncode : Prop :=
  ∀ (i : Instr) (rest : List Byte), i.wellFormed = true → decode (encode i ++ rest) = .ok (i, rest)

/-- What the decoder accepts is well formed and encodes back to the bytes it was read from, and its length is decided by the
opcode byte alone: one byte for 0xFF, three for every other value (30_encoding.md R49, R53, R54). -/
def Obligations.EncodeInvertsDecode : Prop :=
  ∀ (bs rest : List Byte) (i : Instr), decode bs = .ok (i, rest) →
    i.wellFormed = true ∧ encode i ++ rest = bs ∧
    (encode i).length = if bs.head? = some 0xFF then 1 else 3

/-- The decoder of 30_encoding.md R56: total, the opcode first, the operands only if the opcode is not HALT, and the five-way
case on the opcode value. -/
def Obligations.DecoderFollowsTheOpcodeMap : Prop :=
  (∀ rest, decode (0xFF :: rest) = .ok (.halt, rest)) ∧
  (∀ b1 b2 rest, decode (0x01 :: b1 :: b2 :: rest) = .ok (.load b1 b2, rest)) ∧
  (∀ b1 b2 rest, decode (0x02 :: b1 :: b2 :: rest) = .ok (.store b1 b2, rest)) ∧
  (∀ b1 b2 rest, decode (0x03 :: b1 :: b2 :: rest) = .ok (.add b1 b2, rest)) ∧
  (∀ b1 b2 rest, decode (0x04 :: b1 :: b2 :: rest) = .ok (.sub b1 b2, rest)) ∧
  (∀ b0 b1 b2 rest, b0 ≠ 0x01 → b0 ≠ 0x02 → b0 ≠ 0x03 → b0 ≠ 0x04 → b0 ≠ 0xFF →
    decode (b0 :: b1 :: b2 :: rest) = .ok (.unrecognized b0 b1 b2, rest))

/-! ### Memory -/

/-- One-byte accesses: an index of 20 or more raises `OutOfBounds(MEM, a)` and never wraps; below 20 the read gives the cell and
the write changes that cell alone (20_memory.md R32, R33). -/
def Obligations.ByteAccess : Prop :=
  ∀ (m : Memory) (a : Nat) (v : Byte),
    (20 ≤ a → m.read1 a = .error ⟨.mem, a⟩ ∧ m.write1 a v = .error ⟨.mem, a⟩) ∧
    (a < 20 → m.read1 a = .ok (m.read a) ∧
      ∃ m', m.write1 a v = .ok m' ∧ m'.read a = v ∧ ∀ b, b ≠ a → m'.read b = m.read b)

/-- A two-byte read checks the lower index first, then the upper, and returns `(mem[a + 1] << 8) | mem[a]` (20_memory.md R34). -/
def Obligations.WordReadLittleEndian : Prop :=
  ∀ (m : Memory) (a : Nat),
    (20 ≤ a → m.read2 a = .error ⟨.mem, a⟩) ∧
    (a < 20 → 20 ≤ a + 1 → m.read2 a = .error ⟨.mem, a + 1⟩) ∧
    (a + 1 < 20 → ∃ v, m.read2 a = .ok v ∧ v.toNat = ((m.read (a + 1)).toNat <<< 8) ||| (m.read a).toNat)

/-- A two-byte write checks both indices before it writes either cell, then puts `v & 0xFF` in cell `a` and `v >> 8` in cell
`a + 1` and changes no other cell; overlapping accesses see one another cell by cell, and a two-byte read depends on exactly its
two cells (20_memory.md R35, R37). -/
def Obligations.WordWriteLittleEndian : Prop :=
  ∀ (m : Memory) (a : Nat) (v : Word),
    (20 ≤ a → m.write2 a v = .error ⟨.mem, a⟩) ∧
    (a < 20 → 20 ≤ a + 1 → m.write2 a v = .error ⟨.mem, a + 1⟩) ∧
    (a + 1 < 20 → ∃ m', m.write2 a v = .ok m' ∧
      (m'.read a).toNat = v.toNat &&& 0xFF ∧ (m'.read (a + 1)).toNat = v.toNat >>> 8 ∧
      (∀ b, b ≠ a → b ≠ a + 1 → m'.read b = m.read b) ∧
      (a + 2 < 20 → ∃ w, m'.read2 (a + 1) = .ok w ∧
        w.toNat = ((m.read (a + 2)).toNat <<< 8) ||| (v.toNat >>> 8))) ∧
    (∀ m' : Memory, m'.read a = m.read a → m'.read (a + 1) = m.read (a + 1) → m'.read2 a = m.read2 a)

/-- The memory's canonical form is one per contents: two memories in it that read alike at every address are equal. The form is
the model's choice (log 6). -/
def Obligations.CanonicalMemoryIsUnique : Prop :=
  ∀ m m' : Memory, m.wf → m'.wf → (∀ a, m.read a = m'.read a) → m = m'

/-! ### The instructions -/

/-- LOAD (41_load_store.md R67): its encoding; with a readable word and a register index below 3 it completes, `x[r]` is the
little-endian word and nothing else changes; otherwise it takes the fault of the first failing check, memory before register;
`LOAD r0, a` is an absolute jump to the word plus 3. -/
def Obligations.LoadEffect : Prop :=
  ∀ (r a : Byte) (s : State),
    decode [0x01, r, a] = .ok (.load r a, []) ∧
    (∀ i : RegIdx, r.toNat = i.val → a.toNat ≤ 18 →
      ∃ t, exec (.load r a) s = .next t ∧ (t.x i).toNat = wordAt s a.toNat ∧ SameButReg s t i) ∧
    (20 ≤ a.toNat → ∃ t, exec (.load r a) s = .next t ∧ FaultTaken s t 1 .mem a.toNat) ∧
    (a.toNat = 19 → ∃ t, exec (.load r a) s = .next t ∧ FaultTaken s t 1 .mem 20) ∧
    (a.toNat ≤ 18 → 3 ≤ r.toNat → ∃ t, exec (.load r a) s = .next t ∧ FaultTaken s t 2 .reg r.toNat) ∧
    (AtInstr s (.load 0 a) → a.toNat ≤ 18 →
      ∃ t, step s = .next t ∧ (t.x 0).toNat = (wordAt s a.toNat + 3) % 65536 ∧ SameButReg s t 0)

/-- STORE (41_load_store.md R68): its encoding; with a register index below 3 and two cells at `a` it completes, cell `a` holds
the low byte of `x[r]`, cell `a + 1` the high byte, and nothing else changes; otherwise it takes the fault of the first failing
check, register before memory, and writes no cell; a STORE over its own bytes completes, and the step then adds 3 to the PC. -/
def Obligations.StoreEffect : Prop :=
  ∀ (r a : Byte) (s : State),
    decode [0x02, r, a] = .ok (.store r a, []) ∧
    (∀ i : RegIdx, r.toNat = i.val → a.toNat ≤ 18 →
      ∃ t, exec (.store r a) s = .next t ∧ (t.mem.read a.toNat).toNat = (s.x i).toNat &&& 0xFF ∧
        (t.mem.read (a.toNat + 1)).toNat = (s.x i).toNat >>> 8 ∧ SameButCells s t a.toNat) ∧
    (3 ≤ r.toNat → ∃ t, exec (.store r a) s = .next t ∧ FaultTaken s t 2 .reg r.toNat) ∧
    (r.toNat < 3 → 20 ≤ a.toNat → ∃ t, exec (.store r a) s = .next t ∧ FaultTaken s t 1 .mem a.toNat) ∧
    (r.toNat < 3 → a.toNat = 19 → ∃ t, exec (.store r a) s = .next t ∧ FaultTaken s t 1 .mem 20) ∧
    (∀ i : RegIdx, r.toNat = i.val → AtInstr s (.store r a) → a.toNat ≤ 18 →
      ∃ t u, step s = .next u ∧ PcPlus3 t u ∧ SameButCells s t a.toNat ∧ wordAt t a.toNat = (s.x i).toNat)

/-- ADD (42_arithmetic.md R70): its encoding; with both register indices below 3 it completes, `x[d]` is the sum of the two old
values modulo 2^16 and nothing else changes, whether or not `d` and `n` are one register; otherwise it takes the fault of the
first operand that names no register; `ADD r0, rn` is a relative jump. -/
def Obligations.AddEffect : Prop :=
  ∀ (d n : Byte) (s : State),
    decode [0x03, d, n] = .ok (.add d n, []) ∧
    (∀ i j : RegIdx, d.toNat = i.val → n.toNat = j.val →
      ∃ t, exec (.add d n) s = .next t ∧ (t.x i).toNat = ((s.x i).toNat + (s.x j).toNat) % 65536 ∧ SameButReg s t i) ∧
    (3 ≤ d.toNat → ∃ t, exec (.add d n) s = .next t ∧ FaultTaken s t 2 .reg d.toNat) ∧
    (d.toNat < 3 → 3 ≤ n.toNat → ∃ t, exec (.add d n) s = .next t ∧ FaultTaken s t 2 .reg n.toNat) ∧
    (∀ j : RegIdx, n.toNat = j.val → AtInstr s (.add 0 n) →
      ∃ t, step s = .next t ∧ (t.x 0).toNat = ((s.x 0).toNat + (s.x j).toNat + 3) % 65536 ∧ SameButReg s t 0)

/-- SUB (42_arithmetic.md R71): its encoding; with both register indices below 3 it completes, `x[d]` is the exact difference of
the two old values modulo 2^16 (the non-negative remainder) and nothing else changes; otherwise it takes the fault of the first
operand that names no register; `SUB r0, rn` is a relative jump. -/
def Obligations.SubEffect : Prop :=
  ∀ (d n : Byte) (s : State),
    decode [0x04, d, n] = .ok (.sub d n, []) ∧
    (∀ i j : RegIdx, d.toNat = i.val → n.toNat = j.val →
      ∃ t, exec (.sub d n) s = .next t ∧
        ((t.x i).toNat : Int) = (((s.x i).toNat : Int) - ((s.x j).toNat : Int)) % 65536 ∧ SameButReg s t i) ∧
    (3 ≤ d.toNat → ∃ t, exec (.sub d n) s = .next t ∧ FaultTaken s t 2 .reg d.toNat) ∧
    (d.toNat < 3 → 3 ≤ n.toNat → ∃ t, exec (.sub d n) s = .next t ∧ FaultTaken s t 2 .reg n.toNat) ∧
    (∀ j : RegIdx, n.toNat = j.val → AtInstr s (.sub 0 n) →
      ∃ t, step s = .next t ∧
        ((t.x 0).toNat : Int) = (((s.x 0).toNat : Int) - ((s.x j).toNat : Int) + 3) % 65536 ∧ SameButReg s t 0)

/-- The ALU laws (42_arithmetic.md R72): no fault, the results modulo 2^16 (a difference below 0 comes out plus 65536), ADD gives
the same value whichever register is the destination, and SUB after ADD on two registers other than the PC restores the first. -/
def Obligations.AluLaws : Prop :=
  ∀ (d n : Byte) (i j : RegIdx) (s : State), d.toNat = i.val → n.toNat = j.val →
    ∃ sum sum' dif back,
      exec (.add d n) s = .next sum ∧ exec (.add n d) s = .next sum' ∧ exec (.sub d n) s = .next dif ∧
      exec (.sub d n) sum = .next back ∧
      sum.status = s.status ∧ dif.status = s.status ∧ sum.fault = s.fault ∧ dif.fault = s.fault ∧
      (sum.x i).toNat = ((s.x i).toNat + (s.x j).toNat) % 65536 ∧
      ((s.x j).toNat ≤ (s.x i).toNat → (dif.x i).toNat = (s.x i).toNat - (s.x j).toNat) ∧
      ((s.x i).toNat < (s.x j).toNat → (dif.x i).toNat + (s.x j).toNat = (s.x i).toNat + 65536) ∧
      sum.x i = sum'.x j ∧
      (i ≠ j → back.x i = s.x i)

/-- HALT (43_control.md R74): its encoding, 0xFF as an opcode and as no operand; it completes, `status` is IDLE and every register, the PC among them, every cell and
the fault record are as before; a step that fetches 0xFF at any of the 20 addresses does exactly this, whatever the other cells
hold; and RUN again on that state stops at once in that state. -/
def Obligations.HaltEffect : Prop :=
  ∀ s : State,
    decode [0xFF] = .ok (.halt, []) ∧
    (∀ b0 b1 b2 rest, b0 ≠ 0xFF → decode (b0 :: b1 :: b2 :: rest) ≠ .ok (.halt, rest)) ∧
    (∃ t, exec .halt s = .next t ∧ t.status = .idle ∧ (∀ j, t.x j = s.x j) ∧ (∀ a, t.mem.read a = s.mem.read a) ∧
      t.fault = s.fault) ∧
    (s.status = .running → (s.x 0).toNat < 20 → s.mem.read (s.x 0).toNat = 0xFF →
      ∃ t, step s = .next t ∧ t.status = .idle ∧ (∀ j, t.x j = s.x j) ∧ (∀ a, t.mem.read a = s.mem.read a) ∧
        t.fault = s.fault ∧ (hostOp .run t).2 = .done ∧ step (hostOp .run t).1 = .next t)

/-- An unrecognized opcode, any value but 0x01, 0x02, 0x03, 0x04 and 0xFF, completes with no effect, and a step that fetches it
from 0 to 17 adds 3 to the PC and changes nothing else, whatever its two operand bytes are; from 17 it leaves 20, where the next
step faults; at 18 and 19 its own operand fetch faults (43_control.md R75; 30_encoding.md R53). -/
def Obligations.UnrecognizedIsNoOperation : Prop :=
  ∀ (op arg1 arg2 : Byte) (s : State), op ≠ 0x01 → op ≠ 0x02 → op ≠ 0x03 → op ≠ 0x04 → op ≠ 0xFF →
    decode [op, arg1, arg2] = .ok (.unrecognized op arg1 arg2, []) ∧
    exec (.unrecognized op arg1 arg2) s = .next s ∧
    (s.status = .running → (s.x 0).toNat ≤ 17 → s.mem.read (s.x 0).toNat = op →
      ∃ t, step s = .next t ∧ PcPlus3 s t ∧
        ((s.x 0).toNat = 17 → ∃ u, step t = .next u ∧ FaultTaken t u 1 .mem 20)) ∧
    (s.status = .running → (s.x 0).toNat = 18 ∨ (s.x 0).toNat = 19 → s.mem.read (s.x 0).toNat = op →
      ∃ t, step s = .next t ∧ FaultTaken s t 1 .mem 20)

/-- STORE then LOAD of the same address gives the stored value, under the conditions of 41_load_store.md R69, for any registers and
any `a ≤ 18`: execute phase by execute phase and step by step where nothing writes the two cells in between (`t'` is any later
state in which they are as the STORE left them), and for two consecutive steps where the LOAD's own bytes are not stored over. -/
def Obligations.StoreThenLoadRoundTrip : Prop :=
  ∀ (r r' a : Byte) (i i' : RegIdx) (s : State), r.toNat = i.val → r'.toNat = i'.val → a.toNat ≤ 18 →
    (∃ t, exec (.store r a) s = .next t ∧ ∀ t', wordAt t' a.toNat = wordAt t a.toNat →
      ∃ u, exec (.load r' a) t' = .next u ∧ u.x i' = s.x i) ∧
    (AtInstr s (.store r a) →
      ∃ t, step s = .next t ∧
        (∀ t', wordAt t' a.toNat = wordAt t a.toNat → AtInstr t' (.load r' a) →
          ∃ u, step t' = .next u ∧ (i' ≠ 0 → u.x i' = s.x i) ∧ (i' = 0 → (u.x 0).toNat = ((s.x i).toNat + 3) % 65536)) ∧
        (BytesAt s ((s.x 0).toNat + 3) [0x01, r', a] →
          (∀ k, k < 3 → (s.x 0).toNat + 3 + k ≠ a.toNat ∧ (s.x 0).toNat + 3 + k ≠ a.toNat + 1) →
          AtInstr t (.load r' a)))

/-! ### The step -/

/-- A step runs the decoded instruction: where the cells at the PC hold a well-formed instruction, the step is its execute phase,
then the PC increment unless the instruction ended the run or faulted (40_execution_cycle.md R59, R63, R65). -/
def Obligations.StepRunsTheDecodedInstruction : Prop :=
  ∀ (i : Instr) (s : State), AtInstr s i →
    decode (encode i) = .ok (i, []) ∧
    step s = match exec i s with
      | .next t => .next (if t.status = .running then t.setX 0 (t.x 0 + 3) else t)
      | .fault f => .fault f
      | .refused f => .refused f

/-- The phases of the fetch (40_execution_cycle.md R60, R61, R62): from 20 up the opcode fetch faults; 0xFF halts without any
operand cell being read; any other opcode reads two operand cells before dispatch, so it faults with index 20 at 18 and 19, and
below runs the instruction those three bytes decode to. -/
def Obligations.FetchPhases : Prop :=
  ∀ s : State, s.status = .running →
    (20 ≤ (s.x 0).toNat → ∃ t, step s = .next t ∧ FaultTaken s t 1 .mem (s.x 0).toNat) ∧
    ((s.x 0).toNat < 20 → ∀ m, Memory.read m (s.x 0).toNat = 0xFF → step (s.setMem m) = .next ((s.setMem m).setStatus .idle)) ∧
    ((s.x 0).toNat = 18 ∨ (s.x 0).toNat = 19 → s.mem.read (s.x 0).toNat ≠ 0xFF →
      ∃ t, step s = .next t ∧ FaultTaken s t 1 .mem 20) ∧
    ((s.x 0).toNat ≤ 17 → s.mem.read (s.x 0).toNat ≠ 0xFF →
      ∃ i, decode [s.mem.read (s.x 0).toNat, s.mem.read ((s.x 0).toNat + 1), s.mem.read ((s.x 0).toNat + 2)] = .ok (i, []) ∧
        AtInstr s i ∧ ∃ t, exec i s = .next t ∧ step s = .next (if t.status = .running then t.setX 0 (t.x 0 + 3) else t))

/-- The PC increment (40_execution_cycle.md R65): after a non-HALT instruction, recognized or not, that does not fault, the step
adds 3 modulo 2^16 to `x[0]` as the instruction left it and changes nothing else; where the instruction left `x[0]` alone the
result is `p + 3` without a wrap; after HALT or a fault there is no increment. -/
def Obligations.PcIncrement : Prop :=
  ∀ (i : Instr) (s t : State), AtInstr s i → exec i s = .next t →
    (i = .halt ∨ t.status = .faulted → step s = .next t ∧ t.x 0 = s.x 0) ∧
    (i ≠ .halt → t.status ≠ .faulted →
      ∃ u, step s = .next u ∧ PcPlus3 t u ∧ (t.x 0 = s.x 0 → (u.x 0).toNat = (s.x 0).toNat + 3))

/-- Transfers of control (43_control.md R76): LOAD, ADD and SUB with register 0 as destination go where the table says, and no
other step that leaves the block RUNNING leaves the sequence `p`, `p + 3`; a target of 20 or more faults at the next fetch. -/
def Obligations.ControlTransfers : Prop :=
  ∀ s t : State, s.status = .running → step s = .next t → t.status = .running →
    ((t.x 0).toNat = (s.x 0).toNat + 3 ∨
      (∃ a, AtInstr s (.load 0 a)) ∨ (∃ n, AtInstr s (.add 0 n)) ∨ ∃ n, AtInstr s (.sub 0 n)) ∧
    (∀ a, AtInstr s (.load 0 a) → (t.x 0).toNat = (wordAt s a.toNat + 3) % 65536) ∧
    (∀ n (j : RegIdx), n.toNat = j.val → AtInstr s (.add 0 n) →
      (t.x 0).toNat = ((s.x 0).toNat + (s.x j).toNat + 3) % 65536) ∧
    (∀ n (j : RegIdx), n.toNat = j.val → AtInstr s (.sub 0 n) →
      ((t.x 0).toNat : Int) = (((s.x 0).toNat : Int) - ((s.x j).toNat : Int) + 3) % 65536) ∧
    (20 ≤ (t.x 0).toNat → ∃ u, step t = .next u ∧ FaultTaken t u 1 .mem (t.x 0).toNat)

/-- While an instruction executes, `x[0]` still holds its own address `p`: STORE, ADD and SUB that read register 0, as either
operand, read `p` (40_execution_cycle.md R64); a result in `x[0]` is then incremented. -/
def Obligations.PcReadsAsOwnAddress : Prop :=
  ∀ s : State,
    (∀ a : Byte, AtInstr s (.store 0 a) → a.toNat ≤ 18 → ∃ t, step s = .next t ∧ wordAt t a.toNat = (s.x 0).toNat) ∧
    (∀ (d : Byte) (i : RegIdx), d.toNat = i.val → i ≠ 0 → AtInstr s (.add d 0) →
      ∃ t, step s = .next t ∧ (t.x i).toNat = ((s.x i).toNat + (s.x 0).toNat) % 65536) ∧
    (∀ (d : Byte) (i : RegIdx), d.toNat = i.val → i ≠ 0 → AtInstr s (.sub d 0) →
      ∃ t, step s = .next t ∧ ((t.x i).toNat : Int) = (((s.x i).toNat : Int) - ((s.x 0).toNat : Int)) % 65536) ∧
    (∀ (n : Byte) (j : RegIdx), n.toNat = j.val → AtInstr s (.add 0 n) →
      ∃ t, step s = .next t ∧ (t.x 0).toNat = ((s.x 0).toNat + (s.x j).toNat + 3) % 65536) ∧
    (∀ (n : Byte) (j : RegIdx), n.toNat = j.val → AtInstr s (.sub 0 n) →
      ∃ t, step s = .next t ∧ ((t.x 0).toNat : Int) = (((s.x 0).toNat : Int) - ((s.x j).toNat : Int) + 3) % 65536)

/-- Faults are precise (60_exceptions.md R81): a step that ends FAULTED leaves every register, the PC among them, and every cell
as they were at its start, and records code 1 for MEM or 2 for REG, the space, an index and the PC; the block then stops: no
step follows. -/
def Obligations.FaultsArePrecise : Prop :=
  ∀ s t : State, step s = .next t → t.status = .faulted →
    (∃ space index, FaultTaken s t (if space = .mem then 1 else 2) space index) ∧ ∀ u, step t ≠ .next u

/-- Which step faults, with which record, and which does not: the first check of 60_exceptions.md R84 that fails, among the causes
of R80, R82 and R83, and no other cause. -/
def Obligations.FirstFailingCheckIsRecorded : Prop :=
  ∀ s : State, s.status = .running →
    (∀ code space index, firstFailingCheck s = some (code, space, index) →
      ∃ t, step s = .next t ∧ FaultTaken s t code space index) ∧
    (firstFailingCheck s = none → ∃ t, step s = .next t ∧ t.status ≠ .faulted ∧ t.fault = s.fault)

/-- The block takes a step exactly while it is RUNNING (40_execution_cycle.md R59); otherwise `step` names the status it is stopped
in (the model's choice, log 2). -/
def Obligations.StepsExactlyWhileRunning : Prop :=
  ∀ s : State, ((∃ t, step s = .next t) ↔ s.status = .running) ∧
    (s.status = .idle → step s = .fault .noStepInIdle) ∧ (s.status = .faulted → step s = .fault .noStepInFaulted)

/-- HALT is the only instruction that stops the block: a step that ends in IDLE fetched 0xFF at the PC and changed only `status`
(43_control.md R74, R78; 60_exceptions.md R93). -/
def Obligations.OnlyHaltStops : Prop :=
  ∀ s t : State, step s = .next t → t.status = .idle →
    (s.x 0).toNat < 20 ∧ s.mem.read (s.x 0).toNat = 0xFF ∧ t = s.setStatus .idle

/-- Memory is written by STORE alone: a step after which some cell differs ran a STORE whose stored cells include it
(20_memory.md R39, R44). -/
def Obligations.OnlyStoreWritesMemory : Prop :=
  ∀ (s t : State) (b : Nat), step s = .next t → t.mem.read b ≠ s.mem.read b →
    ∃ r a : Byte, AtInstr s (.store r a) ∧ r.toNat < 3 ∧ a.toNat ≤ 18 ∧ (b = a.toNat ∨ b = a.toNat + 1)

/-- `x[1]` and `x[2]` are written only by LOAD, ADD and SUB that name them (10_state.md R18): a step after which one of them
differs ran such an instruction. -/
def Obligations.OnlyNamedRegistersAreWritten : Prop :=
  ∀ (s t : State) (i : RegIdx), i ≠ 0 → step s = .next t → t.x i ≠ s.x i →
    ∃ d n : Byte, d.toNat = i.val ∧ (AtInstr s (.load d n) ∨ AtInstr s (.add d n) ∨ AtInstr s (.sub d n))

/-- Fetch is coherent with stores (20_memory.md R47): a STORE, even one over its own bytes, completes its step, and the very next
step runs what the cells from `p + 3` on then hold, whichever of them the STORE wrote: HALT where the opcode is 0xFF, else the
instruction the three bytes decode to, else, where its operand bytes or the opcode itself would be outside memory, the fault
`(1, MEM, 20)`. -/
def Obligations.StoreIsSeenByTheNextFetch : Prop :=
  ∀ (r a : Byte) (i : RegIdx) (s : State), r.toNat = i.val → a.toNat ≤ 18 → AtInstr s (.store r a) →
    ∃ t, step s = .next t ∧ t.status = .running ∧ (t.x 0).toNat = (s.x 0).toNat + 3 ∧
      wordAt t a.toNat = (s.x i).toNat ∧
      (∀ b, t.mem.read b = cellAfterStore s (s.x i) a.toNat b) ∧
      ((s.x 0).toNat ≤ 16 → cellAfterStore s (s.x i) a.toNat ((s.x 0).toNat + 3) = 0xFF →
        AtInstr t .halt ∧ fetch t = .ok .halt ∧ step t = .next (t.setStatus .idle)) ∧
      ((s.x 0).toNat ≤ 14 → cellAfterStore s (s.x i) a.toNat ((s.x 0).toNat + 3) ≠ 0xFF →
        ∃ j, decode [cellAfterStore s (s.x i) a.toNat ((s.x 0).toNat + 3),
            cellAfterStore s (s.x i) a.toNat ((s.x 0).toNat + 4),
            cellAfterStore s (s.x i) a.toNat ((s.x 0).toNat + 5)] = .ok (j, []) ∧
          AtInstr t j ∧ fetch t = .ok j ∧
          ∃ u, exec j t = .next u ∧ step t = .next (if u.status = .running then u.setX 0 (u.x 0 + 3) else u)) ∧
      (15 ≤ (s.x 0).toNat →
        ((s.x 0).toNat ≤ 16 → cellAfterStore s (s.x i) a.toNat ((s.x 0).toNat + 3) ≠ 0xFF) →
        ∃ u, step t = .next u ∧ FaultTaken t u 1 .mem 20)

/-- The step agrees with the pseudocode of 40_execution_cycle.md R59 read on natural numbers, instruction by instruction, fault by
fault, in every RUNNING state; and "the block takes a step only while `status = RUNNING`". -/
def Obligations.StepRefinesThePseudocode : Prop :=
  ∀ s : State, (s.status = .running → ∃ t, step s = .next t ∧ numbers t = stepN (numbers s)) ∧
    (s.status ≠ .running → ∀ t, step s ≠ .next t)

/-! ### Reset and the host -/

/-- Reset (10_state.md R29): every register and every cell 0, IDLE, no fault record; and RESET, from IDLE and from FAULTED, gives
that state (70_reset_and_hazards.md R94). -/
def Obligations.ResetState : Prop :=
  (∀ i, State.reset.x i = 0) ∧ (∀ a, a < 20 → State.reset.mem.read a = 0) ∧ State.reset.status = .idle ∧
    State.reset.fault = none ∧
  ∀ s : State, s.status ≠ .running → hostOp .reset s = (State.reset, .done)

/-- The table of 70_reset_and_hazards.md R96: which statuses admit which operation; one that is not admitted is refused as not
admitted and changes nothing. The reply's name is the model's choice (log 9), and so is that LOAD_IMAGE outside IDLE gets this
refusal whatever its image's length (log 11); in IDLE a wrong length is refused as `InvalidImageSize` (R98), which is
`LoadImageReplacesMemory`'s matter. -/
def Obligations.HostAdmission : Prop :=
  ∀ (op : HostOp) (s : State),
    (hostOp op s = (s, .notAdmitted) ↔
      match op with
      | .reset => s.status = .running
      | .loadImage _ => s.status ≠ .idle
      | .run => s.status ≠ .idle
      | .inspect => s.status = .running)

/-- LOAD_IMAGE (70_reset_and_hazards.md R97, R98): in IDLE, 20 bytes replace the 20 cells and nothing else changes; another length
is refused with InvalidImageSize, code 3, and nothing changes. -/
def Obligations.LoadImageReplacesMemory : Prop :=
  ∀ (image : List Byte) (s : State), s.status = .idle →
    (∀ h : image.length = 20, ∃ t, hostOp (.loadImage image) s = (t, .done) ∧
      (∀ a, (ha : a < 20) → t.mem.read a = image[a]) ∧ (∀ i, t.x i = s.x i) ∧ t.status = s.status ∧ t.fault = s.fault) ∧
    (image.length ≠ 20 → hostOp (.loadImage image) s = (s, .invalidImageSize) ∧
      HostReply.errorCode .invalidImageSize = some 3)

/-- RUN and the run (70_reset_and_hazards.md R99; 40_execution_cycle.md R66): RUN in IDLE sets RUNNING and changes nothing else;
the run then ends in IDLE or FAULTED, in one state whatever number of steps is allowed, or never ends, and not both. -/
def Obligations.RunEndsInOneStateOrNever : Prop :=
  ∀ s : State, s.status = .idle →
    hostOp .run s = (s.setStatus .running, .done) ∧
    ((∃ t, RunReturns s t) ∨ RunNeverReturns s) ∧
    ¬((∃ t, RunReturns s t) ∧ RunNeverReturns s) ∧
    (∀ t u, RunReturns s t → RunReturns s u → t = u) ∧
    (∀ t, RunReturns s t → t.status = .idle ∨ t.status = .faulted)

/-- INSPECT (70_reset_and_hazards.md R100): admitted in IDLE and FAULTED, it reads every register, every cell, `status` and
`fault`, and changes nothing. -/
def Obligations.InspectReadsEverything : Prop :=
  ∀ s : State, s.status ≠ .running →
    ∃ v, hostOp .inspect s = (s, .inspected v) ∧ (∀ i : RegIdx, v.regs[i] = s.x i) ∧ v.cells.length = 20 ∧
      (∀ a, (h : a < v.cells.length) → v.cells[a] = s.mem.read a) ∧ v.status = s.status ∧ v.fault = s.fault

/-- A RUN before any LOAD_IMAGE (70_reset_and_hazards.md R95): the entry point is 0, the cells are 0, the unrecognized opcode 0x00
executes at 0, 3, 6, 9, 12 and 15, and the step at 18 faults with the record `(1, MEM, 20, 18)`. -/
def Obligations.RunFromReset : Prop :=
  State.reset.x 0 = 0 ∧ (∀ a, State.reset.mem.read a = 0) ∧
  (∀ k, k < 6 → ((runFor k State.reset.startRun).x 0).toNat = 3 * k ∧
    AtInstr (runFor k State.reset.startRun) (.unrecognized 0 0 0)) ∧
  (runFor 6 State.reset.startRun).x 0 = 18 ∧
  ∃ t, RunReturns State.reset t ∧ t.status = .faulted ∧ t.fault = some ⟨1, .mem, 20, 18⟩ ∧ t.x 0 = 18

/-- In FAULTED the block takes no step, RUN and LOAD_IMAGE are refused and change nothing, INSPECT is admitted, answers the view of
the state and changes nothing, and RESET constructs the block anew: nothing but RESET leaves FAULTED or changes the record
(60_exceptions.md R85). That the refusals answer `notAdmitted` is the model's choice (log 9), and so is that LOAD_IMAGE gets this
answer for an image of a wrong length too (log 11). -/
def Obligations.OnlyResetLeavesFaulted : Prop :=
  ∀ s : State, s.status = .faulted →
    (∀ t, step s ≠ .next t) ∧ hostOp .run s = (s, .notAdmitted) ∧
    (∀ image, hostOp (.loadImage image) s = (s, .notAdmitted)) ∧ hostOp .inspect s = (s, .inspected s.view) ∧
    hostOp .reset s = (State.reset, .done)

/-! ### Invariants -/

/-- The invariant holds after reset. -/
def Obligations.ResetMeetsInvariant : Prop :=
  State.reset.Inv

/-- Every step keeps the invariant, from every state that meets it: memory in canonical form within the 20 cells, a record exactly
in FAULTED, one of the records a fault can leave, with the PC still at the faulting instruction. -/
def Obligations.StepKeepsInvariant : Prop :=
  ∀ s t : State, s.Inv → step s = .next t → t.Inv

/-- Every host operation keeps the invariant, so every state the block can be in meets it. -/
def Obligations.ReachableStatesMeetInvariant : Prop :=
  (∀ (op : HostOp) (s : State), s.Inv → (hostOp op s).1.Inv) ∧ ∀ s, Reachable s → s.Inv

/-- The footprint of a step, read off the instruction at the PC. STORE writes no cell but the two its memory operand names and no
register but `x[0]`; LOAD, ADD and SUB write no cell and no register but `x[0]` and the one their first operand names; any other
step (HALT, an unrecognized opcode, a fetch that faults) writes no cell and no register but `x[0]` (10_state.md R18;
20_memory.md R39). -/
def Obligations.StepFootprint : Prop :=
  ∀ s t : State, step s = .next t →
    (∀ r a : Byte, AtInstr s (.store r a) →
      (∀ j, j ≠ 0 → t.x j = s.x j) ∧
      ∀ b, b ≠ memoryOperand a → b ≠ memoryOperand a + 1 → t.mem.read b = s.mem.read b) ∧
    (∀ d n : Byte, AtInstr s (.load d n) ∨ AtInstr s (.add d n) ∨ AtInstr s (.sub d n) →
      (∀ j : RegIdx, j ≠ 0 → d.toNat ≠ j.val → t.x j = s.x j) ∧ ∀ b, t.mem.read b = s.mem.read b) ∧
    ((∀ d n : Byte, ¬AtInstr s (.store d n) ∧ ¬AtInstr s (.load d n) ∧ ¬AtInstr s (.add d n) ∧ ¬AtInstr s (.sub d n)) →
      (∀ j, j ≠ 0 → t.x j = s.x j) ∧ ∀ b, t.mem.read b = s.mem.read b)

/-! ### Idioms and notation -/

/-- `ADD r0, rX` with `x[X] = 0xFFFD` spins in place: the step changes nothing, and a RUN on it never returns (30_encoding.md R58;
40_execution_cycle.md R66). -/
def Obligations.SpinNeverReturns : Prop :=
  ∀ (n : Byte) (j : RegIdx) (s : State), n.toNat = j.val → j ≠ 0 → s.x j = 0xFFFD →
    (AtInstr s (.add 0 n) → step s = .next s) ∧
    (s.status = .idle → AtInstr (s.setStatus .running) (.add 0 n) → RunNeverReturns s)

/-- The return point (43_control.md R77): `STORE r0, a` at `p` saves `p`, and any later `LOAD r0, a` that still finds it continues
at `p + 3`. -/
def Obligations.SavedPcReturnsAfterTheStore : Prop :=
  ∀ (a : Byte) (s : State), a.toNat ≤ 18 → AtInstr s (.store 0 a) →
    ∃ t, step s = .next t ∧ wordAt t a.toNat = (s.x 0).toNat ∧
      ∀ u, AtInstr u (.load 0 a) → wordAt u a.toNat = wordAt t a.toNat →
        ∃ w, step u = .next w ∧ (w.x 0).toNat = (s.x 0).toNat + 3

/-- The assembler notation (30_encoding.md R57) emits 20 bytes: each item at the next address from 0, and the rest 0 (the padding
byte and the refusal of longer programs are the model's choice, log 17); so LOAD_IMAGE never refuses its image. -/
def Obligations.AssembledImageIsLoadable : Prop :=
  ∀ (before after : List AsmItem) (item : AsmItem) (image : List Byte),
    assembleItems (before ++ item :: after) = some image →
      image.length = 20 ∧
      (∀ k, (h : k < image.length) → ((before ++ item :: after).flatMap AsmItem.toBytes).length ≤ k → image[k] = 0) ∧
      (image.drop (before.flatMap AsmItem.toBytes).length).take item.toBytes.length = item.toBytes ∧
      ∀ s : State, s.status = .idle → (hostOp (.loadImage image) s).2 = .done

/-- The word of the opcode table that `withFetchWord` places is the one the next step fetches, and the step runs its instruction
(the model's own convention, log 3, 4 and 5). -/
def Obligations.PlacedWordIsFetched : Prop :=
  ∀ (s : State) (nbits w : Nat) (i : Instr), decodeTableWord nbits w = some i →
    (s.withFetchWord nbits w).status = .running ∧
    fetch (s.withFetchWord nbits w) = .ok i ∧
    ((s.x 0).toNat ≤ 17 → ∀ j, (s.withFetchWord nbits w).x j = s.x j)
end

