-- ==== Sys2Proof/Laws/Decode.lean ====
section
/-! SUPPORT. What the decoder and the encoder say of one opcode byte. -/

namespace Sys2Proof

@[simp] theorem instrLength_halt : instrLength opHalt = 1 := rfl

theorem instrLength_ne {b0 : Byte} (h : b0 ≠ opHalt) : instrLength b0 = 3 := if_neg h

@[simp] theorem decode_halt (rest : List Byte) : decode (opHalt :: rest) = .ok (.halt, rest) := rfl

theorem decode_ne {b0 : Byte} (h : b0 ≠ opHalt) (b1 b2 : Byte) (rest : List Byte) :
    decode (b0 :: b1 :: b2 :: rest) = .ok (decodeOperands b0 b1 b2, rest) := if_neg h

/-- The dispatch of `decodeOperands`, one case per opcode value. -/
theorem decodeOperands_cases (b0 b1 b2 : Byte) :
    (b0 = opLoad ∧ decodeOperands b0 b1 b2 = .load b1 b2) ∨
    (b0 = opStore ∧ decodeOperands b0 b1 b2 = .store b1 b2) ∨
    (b0 = opAdd ∧ decodeOperands b0 b1 b2 = .add b1 b2) ∨
    (b0 = opSub ∧ decodeOperands b0 b1 b2 = .sub b1 b2) ∨
    ((b0 ≠ opLoad ∧ b0 ≠ opStore ∧ b0 ≠ opAdd ∧ b0 ≠ opSub) ∧ decodeOperands b0 b1 b2 = .unrecognized b0 b1 b2) := by
  unfold decodeOperands
  by_cases h1 : b0 = opLoad
  · exact .inl ⟨h1, if_pos h1⟩
  by_cases h2 : b0 = opStore
  · exact .inr (.inl ⟨h2, by rw [if_neg h1, if_pos h2]⟩)
  by_cases h3 : b0 = opAdd
  · exact .inr (.inr (.inl ⟨h3, by rw [if_neg h1, if_neg h2, if_pos h3]⟩))
  by_cases h4 : b0 = opSub
  · exact .inr (.inr (.inr (.inl ⟨h4, by rw [if_neg h1, if_neg h2, if_neg h3, if_pos h4]⟩)))
  · exact .inr (.inr (.inr (.inr ⟨⟨h1, h2, h3, h4⟩, by rw [if_neg h1, if_neg h2, if_neg h3, if_neg h4]⟩)))

theorem wellFormed_unrecognized {op arg1 arg2 : Byte} :
    (Instr.unrecognized op arg1 arg2).wellFormed = true ↔
      op ≠ opLoad ∧ op ≠ opStore ∧ op ≠ opAdd ∧ op ≠ opSub ∧ op ≠ opHalt := by
  simp [Instr.wellFormed, recognizedOpcodes]

end Sys2Proof
end

