-- ==== Sys2Proof/Laws/Memory.lean ====
section
/-! SUPPORT. Memory: a read after a write, and the canonical form kept by every operation. -/

namespace Sys2Proof.Machine

@[simp] theorem Memory.read_nil (a : Nat) : Memory.read [] a = 0 := rfl

theorem Memory.read_cons (c : Host.Cell) (m : Memory) (a : Nat) :
    Memory.read (c :: m) a = if a = c.1 then c.2 else m.read a := by
  obtain ⟨k, v⟩ := c
  by_cases h : a = k
  · simp [Memory.read, List.lookup, h]
  · have : (a == k) = false := by simp [h]
    simp [Memory.read, List.lookup, this, h]

/-- An address without an entry reads 0. -/
theorem Memory.read_eq_zero {m : Memory} {a : Nat} (h : ∀ c ∈ m, c.1 ≠ a) : m.read a = 0 := by
  induction m with
  | nil => rfl
  | cons c m ih =>
    have := h c (by simp)
    rw [Memory.read_cons, if_neg (Ne.symm this), ih fun d hd => h d (by simp [hd])]

theorem Memory.read_unlist (m : Memory) (a b : Nat) : (m.unlist a).read b = if b = a then 0 else m.read b := by
  induction m with
  | nil => simp [Memory.unlist]
  | cons c m ih =>
    by_cases hc : c.1 = a
    · have : Memory.unlist (c :: m) a = Memory.unlist m a := by simp [Memory.unlist, hc]
      rw [this, ih, Memory.read_cons, hc]
      split <;> simp_all
    · have : Memory.unlist (c :: m) a = c :: Memory.unlist m a := by simp [Memory.unlist, hc]
      rw [this, Memory.read_cons, Memory.read_cons, ih]
      split
      · next h => rw [if_neg (h ▸ hc)]
      · rfl

theorem Memory.read_enlist {m : Memory} {a : Nat} (h : ∀ c ∈ m, c.1 ≠ a) (v : Byte) (b : Nat) :
    (m.enlist a v).read b = if b = a then v else m.read b := by
  induction m with
  | nil => simp [Memory.enlist, Memory.read_cons]
  | cons c m ih =>
    have hc : c.1 ≠ a := h c (by simp)
    have ih := ih fun d hd => h d (by simp [hd])
    unfold Memory.enlist
    split
    · rw [Memory.read_cons]
    · rw [Memory.read_cons, Memory.read_cons, ih]
      split
      · next hb => rw [if_neg (hb ▸ hc)]
      · rfl

theorem Memory.mem_unlist {m : Memory} {a : Nat} {c : Host.Cell} : c ∈ m.unlist a ↔ c ∈ m ∧ c.1 ≠ a := by
  simp [Memory.unlist]

theorem Memory.mem_enlist {m : Memory} {a : Nat} {v : Byte} {c : Host.Cell} :
    c ∈ m.enlist a v ↔ c = (a, v) ∨ c ∈ m := by
  induction m with
  | nil => simp [Memory.enlist]
  | cons d m ih =>
    unfold Memory.enlist
    split
    · simp
    · simp only [List.mem_cons, ih]; tauto

/-- A read after a write. -/
theorem Memory.read_write (m : Memory) (a : Nat) (v : Byte) (b : Nat) :
    (m.write a v).read b = if b = a then v else m.read b := by
  unfold Memory.write
  split
  · next h => rw [Memory.read_unlist, h]
  · rw [Memory.read_enlist (fun c hc => (Memory.mem_unlist.mp hc).2), Memory.read_unlist]
    split <;> simp_all

@[simp] theorem Memory.read_write_same (m : Memory) (a : Nat) (v : Byte) : (m.write a v).read a = v := by
  simp [Memory.read_write]

theorem Memory.read_write_ne (m : Memory) {a b : Nat} (v : Byte) (h : b ≠ a) : (m.write a v).read b = m.read b := by
  simp [Memory.read_write, h]

/-! ### The canonical form is kept -/

theorem Memory.wf_nil : Memory.wf [] := ⟨.nil, fun _ h => nomatch h⟩

theorem Memory.wf_unlist {m : Memory} (h : m.wf) (a : Nat) : (m.unlist a).wf :=
  ⟨h.1.filter _, fun c hc => h.2 c (Memory.mem_unlist.mp hc).1⟩

theorem Memory.wf_enlist {m : Memory} (h : m.wf) {a : Nat} {v : Byte} (hm : ∀ c ∈ m, c.1 ≠ a) (ha : a < memSize)
    (hv : v ≠ 0) : (m.enlist a v).wf := by
  refine ⟨?_, fun c hc => ?_⟩
  · obtain ⟨hp, -⟩ := h
    induction m with
    | nil => simp [Memory.enlist]
    | cons d m ih =>
      have hd : d.1 ≠ a := hm d (by simp)
      obtain ⟨hd', hp'⟩ := List.pairwise_cons.mp hp
      unfold Memory.enlist
      split
      · next hlt =>
        refine List.pairwise_cons.mpr ⟨fun c hc => ?_, hp⟩
        rcases List.mem_cons.mp hc with rfl | hc
        · exact hlt
        · exact Nat.lt_trans hlt (hd' c hc)
      · next hge =>
        refine List.pairwise_cons.mpr ⟨fun c hc => ?_, ih (fun c hc => hm c (by simp [hc])) hp'⟩
        rcases Memory.mem_enlist.mp hc with rfl | hc
        · show d.1 < a
          omega
        · exact hd' c hc
  · rcases Memory.mem_enlist.mp hc with rfl | hc
    · exact ⟨ha, hv⟩
    · exact h.2 c hc

theorem Memory.wf_write {m : Memory} (h : m.wf) {a : Nat} (ha : a < memSize) (v : Byte) : (m.write a v).wf := by
  unfold Memory.write
  split
  · exact Memory.wf_unlist h a
  · next hv => exact Memory.wf_enlist (Memory.wf_unlist h a) (fun c hc => (Memory.mem_unlist.mp hc).2) ha hv

theorem Memory.wf_write1 {m m' : Memory} (h : m.wf) {a : Nat} {v : Byte} (e : m.write1 a v = .ok m') : m'.wf := by
  unfold Memory.write1 at e
  split at e
  · cases e
  · next ha => cases e; exact Memory.wf_write h (by omega) v

theorem Memory.wf_write2 {m m' : Memory} (h : m.wf) {a : Nat} {v : Word} (e : m.write2 a v = .ok m') : m'.wf := by
  unfold Memory.write2 at e
  split at e
  · cases e
  · split at e
    · cases e
    · cases e; exact Memory.wf_write (Memory.wf_write h (by omega) _) (by omega) _

theorem Memory.wf_writeBytes {m : Memory} (h : m.wf) {a : Nat} {bs : List Byte} (ha : a + bs.length ≤ memSize) :
    (m.writeBytes a bs).wf := by
  induction bs generalizing m a with
  | nil => exact h
  | cons b bs ih =>
    rw [List.length_cons] at ha
    exact ih (Memory.wf_write h (by omega) b) (by omega)

/-- Consecutive cells after `writeBytes`. -/
theorem Memory.read_writeBytes (m : Memory) (a : Nat) (bs : List Byte) (b : Nat) :
    (m.writeBytes a bs).read b = if h : a ≤ b ∧ b - a < bs.length then bs[b - a]'h.2 else m.read b := by
  induction bs generalizing m a with
  | nil => simp [Memory.writeBytes]
  | cons c bs ih =>
    rw [Memory.writeBytes, ih]
    by_cases hb : b = a
    · subst hb
      simp
    · by_cases hlt : a + 1 ≤ b ∧ b - (a + 1) < bs.length
      · have h' : a ≤ b ∧ b - a < (c :: bs).length := by simp; omega
        have hk : b - a = b - (a + 1) + 1 := by omega
        rw [dif_pos hlt, dif_pos h']
        simp [hk]
      · have h' : ¬(a ≤ b ∧ b - a < (c :: bs).length) := by simp; omega
        rw [dif_neg hlt, dif_neg h', Memory.read_write_ne m c hb]

end Sys2Proof.Machine
end

