-- ==== Sys2Proof/Laws/State.lean ====
section
/-! SUPPORT. One lemma per field per update of `State`, and reading a register after writing one. -/

namespace Sys2Proof.Machine

variable (s : State) (i j : RegIdx) (v : Word) (m : Memory) (st : Status) (f : Option FaultRecord) (e : OutOfBounds)

/-! ### Writing a register -/

@[simp] theorem State.setX_mem : (s.setX i v).mem = s.mem := rfl
@[simp] theorem State.setX_status : (s.setX i v).status = s.status := rfl
@[simp] theorem State.setX_fault : (s.setX i v).fault = s.fault := rfl

@[simp] theorem State.x_setX_same : (s.setX i v).x i = v := by
  simp [State.x, State.setX]

theorem State.x_setX_ne {i j : RegIdx} (h : j ≠ i) : (s.setX i v).x j = s.x j := by
  have : (i : Nat) ≠ (j : Nat) := fun hij => h (Fin.ext hij.symm)
  simp [State.x, State.setX, this]

theorem State.x_setX : (s.setX i v).x j = if j = i then v else s.x j := by
  split
  · next h => subst h; simp
  · next h => exact s.x_setX_ne v h

@[simp] theorem State.pc_setX_zero : (s.setX 0 v).pc = v := s.x_setX_same 0 v

@[simp] theorem State.setX_setX (w : Word) : (s.setX i v).setX i w = s.setX i w := by
  simp [State.setX]

/-! ### Updating another field -/

@[simp] theorem State.setMem_x : (s.setMem m).x i = s.x i := rfl
@[simp] theorem State.setMem_pc : (s.setMem m).pc = s.pc := rfl
@[simp] theorem State.setMem_mem : (s.setMem m).mem = m := rfl
@[simp] theorem State.setMem_status : (s.setMem m).status = s.status := rfl
@[simp] theorem State.setMem_fault : (s.setMem m).fault = s.fault := rfl

@[simp] theorem State.setStatus_x : (s.setStatus st).x i = s.x i := rfl
@[simp] theorem State.setStatus_pc : (s.setStatus st).pc = s.pc := rfl
@[simp] theorem State.setStatus_mem : (s.setStatus st).mem = s.mem := rfl
@[simp] theorem State.setStatus_status : (s.setStatus st).status = st := rfl
@[simp] theorem State.setStatus_fault : (s.setStatus st).fault = s.fault := rfl

/-! ### Taking a fault -/

@[simp] theorem State.takeFault_x : (s.takeFault e).x i = s.x i := rfl
@[simp] theorem State.takeFault_pc : (s.takeFault e).pc = s.pc := rfl
@[simp] theorem State.takeFault_regs : (s.takeFault e).regs = s.regs := rfl
@[simp] theorem State.takeFault_mem : (s.takeFault e).mem = s.mem := rfl
@[simp] theorem State.takeFault_status : (s.takeFault e).status = .faulted := rfl
@[simp] theorem State.takeFault_fault :
    (s.takeFault e).fault = some ⟨faultCode e.space, e.space, e.index, s.pc⟩ := rfl

/-! ### The PC increment and the end of a step -/

@[simp] theorem State.incrementPc_pc : s.incrementPc.pc = s.pc + 3 := s.pc_setX_zero _
@[simp] theorem State.incrementPc_mem : s.incrementPc.mem = s.mem := rfl
@[simp] theorem State.incrementPc_status : s.incrementPc.status = s.status := rfl
@[simp] theorem State.incrementPc_fault : s.incrementPc.fault = s.fault := rfl

theorem State.incrementPc_x {i : RegIdx} (h : i ≠ 0) : s.incrementPc.x i = s.x i := s.x_setX_ne _ h

theorem State.finishStep_running {s : State} (h : s.status = .running) : s.finishStep = s.incrementPc := if_pos h

theorem State.finishStep_ended {s : State} (h : s.status ≠ .running) : s.finishStep = s := if_neg h

@[simp] theorem State.finishStep_takeFault : (s.takeFault e).finishStep = s.takeFault e :=
  State.finishStep_ended (by simp)

@[simp] theorem State.finishStep_mem : s.finishStep.mem = s.mem := by
  unfold State.finishStep; split <;> rfl

@[simp] theorem State.finishStep_status : s.finishStep.status = s.status := by
  unfold State.finishStep; split <;> rfl

@[simp] theorem State.finishStep_fault : s.finishStep.fault = s.fault := by
  unfold State.finishStep; split <;> rfl

/-! ### The host's updates -/

@[simp] theorem State.startRun_x : s.startRun.x i = s.x i := rfl
@[simp] theorem State.startRun_pc : s.startRun.pc = s.pc := rfl
@[simp] theorem State.startRun_mem : s.startRun.mem = s.mem := rfl
@[simp] theorem State.startRun_status : s.startRun.status = .running := rfl
@[simp] theorem State.startRun_fault : s.startRun.fault = s.fault := rfl

@[simp] theorem State.reset_x : State.reset.x i = 0 := by
  revert i; decide

/-- Two states that agree on every register and every other field are one. -/
theorem State.eq_of_fields {s t : State} (hx : ∀ i, s.x i = t.x i) (hm : s.mem = t.mem) (hs : s.status = t.status)
    (hf : s.fault = t.fault) : s = t := by
  obtain ⟨r, m, st, f⟩ := s
  obtain ⟨r', m', st', f'⟩ := t
  obtain rfl : r = r' := Vector.ext fun k hk => hx ⟨k, hk⟩
  simp_all

end Sys2Proof.Machine
end

