-- ==== Sys2Proof/Laws/Ops.lean ====
section
/-! SUPPORT. What each shared operation can do, said once: byte order, the access primitives, the register operand, the ALU. -/

namespace Sys2Proof.Machine

/-! ### The sizes, as the numbers they are (omega sees a name as an unknown) -/

theorem memSize_eq : memSize = 20 := rfl
theorem numRegs_eq : numRegs = 3 := rfl

/-! ### Sequencing -/

@[simp] theorem ok_bind {ε α β : Type} (a : α) (f : α → Except ε β) : (Except.ok a >>= f) = f a := rfl
@[simp] theorem error_bind {ε α β : Type} (e : ε) (f : α → Except ε β) : (Except.error e >>= f) = .error e := rfl

@[simp] theorem complete_ok (s t : State) : complete s (.ok t) = .next t := rfl
@[simp] theorem complete_error (s : State) (e : OutOfBounds) : complete s (.error e) = .next (s.takeFault e) := rfl

/-! ### Byte order -/

@[simp] theorem lowByte_toNat (v : Word) : (lowByte v).toNat = v.toNat % 256 := by
  simp [lowByte]

@[simp] theorem highByte_toNat (v : Word) : (highByte v).toNat = v.toNat / 256 := by
  have := v.isLt
  simp only [highByte, BitVec.toNat_setWidth, BitVec.toNat_ushiftRight, Nat.shiftRight_eq_div_pow]
  omega

@[simp] theorem joinBytes_toNat (hi lo : Byte) : (joinBytes hi lo).toNat = hi.toNat * 256 + lo.toNat := by
  have h1 := hi.isLt
  have h2 := lo.isLt
  have h3 : hi.toNat <<< 8 % 2 ^ 16 = 2 ^ 8 * hi.toNat := by rw [Nat.shiftLeft_eq]; omega
  rw [joinBytes, BitVec.toNat_or, BitVec.toNat_shiftLeft, BitVec.toNat_setWidth, BitVec.toNat_setWidth,
    Nat.mod_eq_of_lt (by omega : hi.toNat < 2 ^ 16), Nat.mod_eq_of_lt (by omega : lo.toNat < 2 ^ 16), h3,
    ← Nat.two_pow_add_eq_or_of_lt h2]
  omega

@[simp] theorem joinBytes_high_low (v : Word) : joinBytes (highByte v) (lowByte v) = v :=
  BitVec.eq_of_toNat_eq (by have := v.isLt; simp; omega)

@[simp] theorem lowByte_joinBytes (hi lo : Byte) : lowByte (joinBytes hi lo) = lo :=
  BitVec.eq_of_toNat_eq (by have := lo.isLt; simp; omega)

@[simp] theorem highByte_joinBytes (hi lo : Byte) : highByte (joinBytes hi lo) = hi :=
  BitVec.eq_of_toNat_eq (by have := lo.isLt; have := hi.isLt; simp; omega)

/-! ### The access primitives -/

theorem Memory.read1_ok {m : Memory} {a : Nat} (h : a < memSize) : m.read1 a = .ok (m.read a) :=
  if_neg (by omega)

theorem Memory.read1_error {m : Memory} {a : Nat} (h : memSize ≤ a) : m.read1 a = .error ⟨.mem, a⟩ :=
  if_pos h

theorem Memory.read2_ok {m : Memory} {a : Nat} (h : a + 1 < memSize) :
    m.read2 a = .ok (joinBytes (m.read (a + 1)) (m.read a)) := by
  unfold Memory.read2; rw [if_neg (by omega), if_neg (by omega)]

theorem Memory.read2_error_low {m : Memory} {a : Nat} (h : memSize ≤ a) : m.read2 a = .error ⟨.mem, a⟩ :=
  if_pos h

theorem Memory.read2_error_high {m : Memory} {a : Nat} (h : a + 1 = memSize) : m.read2 a = .error ⟨.mem, memSize⟩ := by
  unfold Memory.read2; rw [if_neg (by omega), if_pos (by omega), h]

theorem Memory.write2_ok {m : Memory} {a : Nat} (v : Word) (h : a + 1 < memSize) :
    m.write2 a v = .ok ((m.write a (lowByte v)).write (a + 1) (highByte v)) := by
  unfold Memory.write2; rw [if_neg (by omega), if_neg (by omega)]

theorem Memory.write2_error_low {m : Memory} {a : Nat} (v : Word) (h : memSize ≤ a) :
    m.write2 a v = .error ⟨.mem, a⟩ :=
  if_pos h

theorem Memory.write2_error_high {m : Memory} {a : Nat} (v : Word) (h : a + 1 = memSize) :
    m.write2 a v = .error ⟨.mem, memSize⟩ := by
  unfold Memory.write2; rw [if_neg (by omega), if_pos (by omega), h]

/-- The cells after a two-byte write. -/
theorem Memory.read_write_pair (m : Memory) (a : Nat) (v : Word) (b : Nat) :
    ((m.write a (lowByte v)).write (a + 1) (highByte v)).read b =
      if b = a + 1 then highByte v else if b = a then lowByte v else m.read b := by
  rw [Memory.read_write, Memory.read_write]

/-! ### The operand forms -/

@[simp] theorem memoryOperand_eq (b : Byte) : memoryOperand b = b.toNat := rfl

theorem registerOperand_ok {b : Byte} {i : RegIdx} (h : b.toNat = i.val) : registerOperand b = .ok i := by
  unfold registerOperand; rw [dif_pos (by omega)]; congr 1; exact Fin.ext h

theorem registerOperand_error {b : Byte} (h : numRegs ≤ b.toNat) : registerOperand b = .error ⟨.reg, b.toNat⟩ :=
  dif_neg (by omega)

/-- A register operand names a register or faults. -/
theorem registerOperand_cases (b : Byte) :
    (∃ i : RegIdx, b.toNat = i.val ∧ registerOperand b = .ok i) ∨
    (numRegs ≤ b.toNat ∧ registerOperand b = .error ⟨.reg, b.toNat⟩) := by
  by_cases h : b.toNat < numRegs
  · exact .inl ⟨⟨b.toNat, h⟩, rfl, registerOperand_ok rfl⟩
  · exact .inr ⟨by omega, registerOperand_error (by omega)⟩

/-! ### The ALU -/

theorem aluAdd_eq (a b : Word) : aluAdd a b = a + b :=
  BitVec.eq_of_toNat_eq (by simp [aluAdd])

theorem aluSub_eq (a b : Word) : aluSub a b = a - b := by
  apply BitVec.eq_of_toNat_eq
  have := a.isLt
  have := b.isLt
  simp only [aluSub, BitVec.toNat_ofInt, BitVec.toNat_sub]
  omega

end Sys2Proof.Machine
end

