-- ==== Sys2Proof/Laws/PerInstr.lean ====
section
/-! SUPPORT. Per-instruction families: for each constructor, what its encoding looks like. -/

namespace Sys2Proof.Laws.EncodeShape

/-- The encoding of a well-formed instruction starts with an opcode byte that alone gives its length (spec/30_encoding.md R49),
and that byte is the HALT opcode for HALT only. -/
def Statement (i : Instr) : Prop :=
  i.wellFormed = true →
    ∃ b0 bs, encode i = b0 :: bs ∧ (encode i).length = instrLength b0 ∧ (b0 = opHalt ↔ i = .halt)

theorem load (r a : Byte) : Statement (.load r a) :=
  fun _ => ⟨opLoad, [r, a], rfl, rfl, fun e => absurd e (by decide), nofun⟩

theorem store (r a : Byte) : Statement (.store r a) :=
  fun _ => ⟨opStore, [r, a], rfl, rfl, fun e => absurd e (by decide), nofun⟩

theorem add (d n : Byte) : Statement (.add d n) :=
  fun _ => ⟨opAdd, [d, n], rfl, rfl, fun e => absurd e (by decide), nofun⟩

theorem sub (d n : Byte) : Statement (.sub d n) :=
  fun _ => ⟨opSub, [d, n], rfl, rfl, fun e => absurd e (by decide), nofun⟩

theorem halt : Statement .halt :=
  fun _ => ⟨opHalt, [], rfl, rfl, fun _ => rfl, fun _ => rfl⟩

theorem unrecognized (op arg1 arg2 : Byte) : Statement (.unrecognized op arg1 arg2) := fun h =>
  have hop : op ≠ opHalt := (wellFormed_unrecognized.mp h).2.2.2.2
  ⟨op, [arg1, arg2], rfl, (instrLength_ne hop).symm, fun e => absurd e hop, nofun⟩

end Sys2Proof.Laws.EncodeShape
end

