-- ==== Sys2Proof/Laws/Step.lean ====
section
/-! SUPPORT. What an execute phase, a fetch and a step can do, said once each. -/

namespace Sys2Proof.Machine

/-! ### The execute phases

`e` is the first check that fails; the lemmas say which it can be. -/

/-- What LOAD can do: write one register, or take the fault of the first failing check. -/
theorem execLoad_cases (r a : Byte) (s : State) :
    (∃ (i : RegIdx) (v : Word), r.toNat = i.val ∧ s.mem.read2 a.toNat = .ok v ∧ execLoad r a s = .next (s.setX i v)) ∨
    (∃ e, (s.mem.read2 a.toNat = .error e ∨
        (∃ v, s.mem.read2 a.toNat = .ok v) ∧ registerOperand r = .error e) ∧
      execLoad r a s = .next (s.takeFault e)) := by
  unfold execLoad memoryOperand
  cases hm : s.mem.read2 a.toNat with
  | error e => exact .inr ⟨e, .inl rfl, by simp⟩
  | ok v =>
    rcases registerOperand_cases r with ⟨i, hi, hr⟩ | ⟨-, hr⟩ <;> rw [hr]
    · exact .inl ⟨i, v, hi, rfl, rfl⟩
    · exact .inr ⟨_, .inr ⟨⟨v, rfl⟩, rfl⟩, rfl⟩

/-- What STORE can do: write two cells, or take the fault of the first failing check. -/
theorem execStore_cases (r a : Byte) (s : State) :
    (∃ (i : RegIdx) (m : Memory), r.toNat = i.val ∧ s.mem.write2 a.toNat (s.x i) = .ok m ∧
      execStore r a s = .next (s.setMem m)) ∨
    (∃ e, (registerOperand r = .error e ∨
        ∃ i : RegIdx, r.toNat = i.val ∧ s.mem.write2 a.toNat (s.x i) = .error e) ∧
      execStore r a s = .next (s.takeFault e)) := by
  unfold execStore memoryOperand
  rcases registerOperand_cases r with ⟨i, hi, hr⟩ | ⟨-, hr⟩ <;> rw [hr]
  · cases hm : s.mem.write2 a.toNat (s.x i) with
    | error e => exact .inr ⟨e, .inr ⟨i, hi, hm⟩, by simp [hm]⟩
    | ok m => exact .inl ⟨i, m, hi, hm, by simp only [ok_bind, hm]; rfl⟩
  · exact .inr ⟨_, .inl rfl, rfl⟩

/-- What ADD and SUB can do: write one register, or take the fault of the first operand that names none. -/
theorem aluInto_cases (f : Word → Word → Word) (d n : Byte) (s : State) :
    (∃ i j : RegIdx, d.toNat = i.val ∧ n.toNat = j.val ∧ aluInto f d n s = .ok (s.setX i (f (s.x i) (s.x j)))) ∨
    (∃ e, (registerOperand d = .error e ∨
        (∃ i : RegIdx, d.toNat = i.val) ∧ registerOperand n = .error e) ∧
      aluInto f d n s = .error e) := by
  unfold aluInto
  rcases registerOperand_cases d with ⟨i, hi, hd⟩ | ⟨-, hd⟩ <;> rw [hd]
  · rcases registerOperand_cases n with ⟨j, hj, hn⟩ | ⟨-, hn⟩ <;> rw [hn]
    · exact .inl ⟨i, j, hi, hj, rfl⟩
    · exact .inr ⟨_, .inr ⟨⟨i, hi⟩, rfl⟩, rfl⟩
  · exact .inr ⟨_, .inl rfl, rfl⟩

@[simp] theorem execHalt_eq (s : State) : execHalt s = .next (s.setStatus .idle) := rfl

@[simp] theorem execUnrecognized_eq (op arg1 arg2 : Byte) (s : State) : execUnrecognized op arg1 arg2 s = .next s := rfl

/-! ### The fetch -/

theorem fetch_outside {s : State} (h : memSize ≤ s.pc.toNat) : fetch s = .error ⟨.mem, s.pc.toNat⟩ := by
  unfold fetch; simp only [Memory.read1_error h, error_bind]

theorem fetch_halt {s : State} (h : s.pc.toNat < memSize) (hb : s.mem.read s.pc.toNat = opHalt) : fetch s = .ok .halt := by
  unfold fetch; simp only [Memory.read1_ok h, ok_bind, hb]; rfl

theorem fetch_three {s : State} (h : s.pc.toNat + 2 < memSize) (hb : s.mem.read s.pc.toNat ≠ opHalt) :
    fetch s = .ok (decodeOperands (s.mem.read s.pc.toNat) (s.mem.read (s.pc.toNat + 1)) (s.mem.read (s.pc.toNat + 2))) := by
  unfold fetch
  simp only [Memory.read1_ok (m := s.mem) (by omega : s.pc.toNat < memSize), Memory.read1_ok (m := s.mem) h,
    Memory.read1_ok (m := s.mem) (by omega : s.pc.toNat + 1 < memSize), ok_bind, if_neg hb]
  rfl

theorem fetch_operand_outside {s : State} (h : s.pc.toNat < memSize) (h' : memSize ≤ s.pc.toNat + 2)
    (hb : s.mem.read s.pc.toNat ≠ opHalt) : fetch s = .error ⟨.mem, memSize⟩ := by
  unfold fetch
  simp only [Memory.read1_ok h, ok_bind, if_neg hb]
  by_cases h1 : s.pc.toNat + 1 < memSize
  · have : s.pc.toNat + 2 = memSize := by omega
    simp only [Memory.read1_ok h1, ok_bind, this, Memory.read1_error (Nat.le_refl memSize), error_bind]
  · have : s.pc.toNat + 1 = memSize := by omega
    simp only [this, Memory.read1_error (Nat.le_refl memSize), error_bind]

/-! ### The step -/

theorem step_running {s : State} (h : s.status = .running) :
    step s = match fetch s with
      | .error e => .next (s.takeFault e)
      | .ok i => finishOutcome (exec i s) := by
  cases hf : fetch s <;> simp [step, h, hf]

theorem step_fetched {s : State} (h : s.status = .running) {i : Instr} (hf : fetch s = .ok i) :
    step s = finishOutcome (exec i s) := by
  rw [step_running h, hf]

theorem step_fetch_fault {s : State} (h : s.status = .running) {e : OutOfBounds} (hf : fetch s = .error e) :
    step s = .next (s.takeFault e) := by
  rw [step_running h, hf]

/-- A step that answers a state was taken while RUNNING, and is the fetch's fault or the fetched instruction's execute phase. -/
theorem step_next_cases {s t : State} (h : step s = .next t) :
    s.status = .running ∧
    ((∃ e, fetch s = .error e ∧ t = s.takeFault e) ∨
     (∃ i u, fetch s = .ok i ∧ exec i s = .next u ∧ t = u.finishStep)) := by
  have hr : s.status = .running := by
    unfold step at h; split at h <;> simp_all
  refine ⟨hr, ?_⟩
  cases hf : fetch s with
  | error e => rw [step_fetch_fault hr hf] at h; cases h; exact .inl ⟨e, rfl, rfl⟩
  | ok i =>
    rw [step_fetched hr hf] at h
    cases hx : exec i s with
    | next u => rw [hx] at h; cases h; exact .inr ⟨i, u, rfl, hx, rfl⟩
    | fault r => rw [hx] at h; cases h
    | refused r => rw [hx] at h; cases h

end Sys2Proof.Machine
end

