-- ==== Sys2Proof/Tests/Slice0.lean ====
section
/-! SUPPORT. The model's own tests. Expected results are the spec's: the encodings of spec/30_encoding.md and the vectors V-* of
spec/95_test_vectors.md, named in each test's comment. After them, for each statement with hypotheses, a state and operands that
meet them, one part per clause, at the boundary values. -/

namespace Sys2Proof.Tests

open Sys2Proof.Machine Sys2Proof.Claims

/-- A RUNNING state with these registers and non-zero cells. -/
def running (x0 x1 x2 : Word) (m : Memory) : State :=
  { regs := #v[x0, x1, x2], mem := m, status := .running, fault := none }

/-- A FAULTED state: the end of P6. -/
def faultedState : State :=
  { regs := #v[18, 0, 0], mem := [], status := .faulted, fault := some ⟨1, .mem, 20, 18⟩ }

/-- The next state of an outcome, if it is one. -/
def next? : Host.Outcome State Fault Refusal → Option State
  | .next t => some t
  | .fault _ => none
  | .refused _ => none

/-- The three registers. -/
def xs (s : State) : List Word := [s.x 0, s.x 1, s.x 2]

/-- The decoded instruction and the rest. -/
def decoded? (bs : List Byte) : Option (Instr × List Byte) :=
  match decode bs with
  | .ok r => some r
  | .error _ => none

/-- The fetched instruction. -/
def fetched? (s : State) : Option Instr :=
  match fetch s with
  | .ok i => some i
  | .error _ => none

/-! ### Well-formedness: format X with each recognized opcode is refused (R52, R53) -/

theorem test_unrecognized_load_refused : (Instr.unrecognized 0x01 0 0).wellFormed = false := by decide
theorem test_unrecognized_store_refused : (Instr.unrecognized 0x02 0 0).wellFormed = false := by decide
theorem test_unrecognized_add_refused : (Instr.unrecognized 0x03 0 0).wellFormed = false := by decide
theorem test_unrecognized_sub_refused : (Instr.unrecognized 0x04 0 0).wellFormed = false := by decide
theorem test_unrecognized_halt_refused : (Instr.unrecognized 0xFF 0 0).wellFormed = false := by decide
/-- 0x00, 0x05 and 0xFE are the ends of the unrecognized ranges (R53). -/
theorem test_unrecognized_accepted :
    (Instr.unrecognized 0x00 0 0).wellFormed ∧ (Instr.unrecognized 0x05 0 0).wellFormed ∧
      (Instr.unrecognized 0xFE 0 0).wellFormed := by decide

/-! ### Decoding: words written out bit by bit from the opcode table's encodings (R50, R52) -/

/-- 00000001 rrrrrrrr aaaaaaaa. -/
theorem test_decode_load : decoded? [0b00000001, 0b10000001, 0b01111110] = some (.load 129 126, []) := by decide
/-- 00000010 rrrrrrrr aaaaaaaa. -/
theorem test_decode_store : decoded? [0b00000010, 0b10000001, 0b01111110] = some (.store 129 126, []) := by decide
/-- 00000011 dddddddd ssssssss. -/
theorem test_decode_add : decoded? [0b00000011, 0b10000001, 0b01111110] = some (.add 129 126, []) := by decide
/-- 00000100 dddddddd ssssssss. -/
theorem test_decode_sub : decoded? [0b00000100, 0b10000001, 0b01111110] = some (.sub 129 126, []) := by decide
/-- 11111111, one byte: the next byte is left. -/
theorem test_decode_halt : decoded? [0b11111111, 0b00000001] = some (.halt, [1]) := by decide
/-- oooooooo xxxxxxxx yyyyyyyy, o = 0xFE. -/
theorem test_decode_unrecognized :
    decoded? [0b11111110, 0b10000001, 0b01111110] = some (.unrecognized 254 129 126, []) := by decide
/-- Byte lists that hold no whole instruction are rejected. -/
theorem test_decode_short : decoded? [] = none ∧ decoded? [0x01, 0x01] = none := by decide
/-- The opcode table's numbers: the opcode in bits 23..16 (R48), HALT in bits 7..0. -/
theorem test_table_words :
    decodeTableWord 24 0x01817E = some (.load 129 126) ∧ decodeTableWord 8 0xFF = some .halt ∧
      decodeTableWord 24 0x990102 = some (.unrecognized 0x99 1 2) := by decide

/-! ### One step each (95_test_vectors.md) -/

/-- V-L4: address 18 is the highest legal one. -/
theorem test_load_highest :
    (next? (step (running 0 0 0 [(0, 0x01), (1, 0x02), (2, 0x12), (18, 0xCD), (19, 0xAB)]))).map xs =
      some [3, 0, 0xABCD] := by decide
/-- V-L11: memory is checked before the register. -/
theorem test_load_fault_order :
    (next? (step (running 0 0 0 [(0, 0x01), (1, 0x05), (2, 0x13)]))).map (·.fault) =
      some (some ⟨1, .mem, 20, 0⟩) := by decide
/-- V-S4: STORE r0 stores its own address. -/
theorem test_store_pc :
    (next? (step (running 9 0 0 [(9, 0x02), (11, 0x10), (16, 0x55), (17, 0x66)]))).map (fun t => (t.mem, t.x 0)) =
      some ([(9, 0x02), (11, 0x10), (16, 0x09)], 12) := by decide
/-- V-S5: a STORE at 19 faults and leaves `mem[19]`. -/
theorem test_store_fault_precise :
    (next? (step (running 0 0x1234 0 [(0, 0x02), (1, 0x01), (2, 0x13), (19, 0xAA)]))).map
        (fun t => (t.status, t.fault, t.mem.read 19)) =
      some (.faulted, some ⟨1, .mem, 20, 0⟩, 0xAA) := by decide
/-- V-A7: `ADD r0, r2` with 0xFFFD jumps to itself. -/
theorem test_add_jump_wraps :
    (next? (step (running 3 0 0xFFFD [(3, 0x03), (5, 0x02)]))).map xs = some [3, 0, 0xFFFD] := by decide
/-- V-A11: `d` is checked first. -/
theorem test_add_fault_order :
    (next? (step (running 0 0 0 [(0, 0x03), (1, 0x04), (2, 0x09)]))).map (·.fault) =
      some (some ⟨2, .reg, 4, 0⟩) := by decide
/-- V-B2: 3 - 5 = 0xFFFE. -/
theorem test_sub_wraps :
    (next? (step (running 0 3 5 [(0, 0x04), (1, 0x01), (2, 0x02)]))).map xs = some [3, 0xFFFE, 5] := by decide
/-- V-B8: `SUB r2, r0` subtracts its own address. -/
theorem test_sub_pc :
    (next? (step (running 6 0 6 [(6, 0x04), (7, 0x02)]))).map xs = some [9, 0, 0] := by decide
/-- V-H2: a HALT at 19 does not fault. -/
theorem test_halt_last_cell :
    (next? (step (running 19 0 0 [(19, 0xFF)]))).map (fun t => (t.status, t.x 0)) = some (.idle, 19) := by decide
/-- V-U4: an unrecognized opcode at 17 leaves 20. -/
theorem test_unrecognized_at_17 :
    (next? (step (running 17 7 8 [(17, 0xFE)]))).map xs = some [20, 7, 8] := by decide
/-- V-U5: at 19 the first operand fetch faults. -/
theorem test_unrecognized_at_19 :
    (next? (step (running 19 0 0 [(19, 0x80)]))).map (·.fault) = some (some ⟨1, .mem, 20, 19⟩) := by decide
/-- V-F2: an opcode fetch from 0xFFFF faults with that index. -/
theorem test_fetch_outside :
    (next? (step (running 0xFFFF 0 0 []))).map (·.fault) = some (some ⟨1, .mem, 65535, 65535⟩) := by decide
/-- The placed word is fetched after reset (log 3, log 4). -/
theorem test_placed_word :
    fetched? (State.reset.withFetchWord 24 0x01817E) = some (.load 129 126) ∧
      fetched? (State.reset.withFetchWord 8 0xFF) = some .halt := by decide

/-! ### The host (V-R4, V-R5, V-R6, V-R7) -/

theorem test_load_image_wrong_size :
    hostOp (.loadImage (List.replicate 19 1)) State.reset = (State.reset, .invalidImageSize) := by decide
theorem test_run_refused_in_faulted : hostOp .run faultedState = (faultedState, .notAdmitted) := by decide
theorem test_load_image_refused_in_faulted :
    hostOp (.loadImage (List.replicate 20 1)) faultedState = (faultedState, .notAdmitted) := by decide
theorem test_reset_from_faulted : hostOp .reset faultedState = (State.reset, .done) := by decide

/-! ### The assembler notation (R57) -/

/-- `LOAD rD, addr` is `01 D addr`; a comment, a second line, and 20 bytes in all. -/
theorem test_assemble_text :
    (assembleText ("load r1, 0x10 ; x1".toList ++ '\n' :: "HALT".toList)).map (·.take 5) = some [0x01, 0x01, 0x10, 0xFF, 0x00] ∧
      (assembleText "HALT".toList).map List.length = some 20 := by decide
/-- `pc` is register 0, `r3` assembles, `.byte` takes decimal and hexadecimal. -/
theorem test_assemble_operands :
    (assembleText ("SUB pc,r3".toList ++ '\n' :: ".byte 153, 0xfe".toList)).map (·.take 5) = some [0x04, 0, 3, 153, 0xFE] := by
  decide
/-- A value above 255, an unknown mnemonic and a missing operand are no program. -/
theorem test_assemble_rejects :
    assembleText "LOAD r1, 256".toList = none ∧ assembleText "JMP r1".toList = none ∧
      assembleText "ADD r1".toList = none := by decide

/-! ### Witnesses: hypotheses that are met -/

theorem witness_DecodeInvertsEncode : (Instr.unrecognized 0xFE 0 255).wellFormed = true := by decide

theorem witness_EncodeInvertsDecode :
    decode [0x05, 0x00, 0xFF, 0x07] = .ok (.unrecognized 0x05 0x00 0xFF, [0x07]) ∧ decode [0xFF] = .ok (.halt, []) :=
  ⟨rfl, rfl⟩

theorem witness_DecoderFollowsTheOpcodeMap :
    (0x05 : Byte) ≠ 0x01 ∧ (0x05 : Byte) ≠ 0x02 ∧ (0x05 : Byte) ≠ 0x03 ∧ (0x05 : Byte) ≠ 0x04 ∧ (0x05 : Byte) ≠ 0xFF := by
  decide

theorem witness_ByteAccess : (20 ≤ 20) ∧ (19 < 20) := by decide

theorem witness_WordReadLittleEndian : (20 ≤ 20) ∧ (19 < 20 ∧ 20 ≤ 19 + 1) ∧ (18 + 1 < 20) := by decide

theorem witness_WordWriteLittleEndian :
    (20 ≤ 20) ∧ (19 < 20 ∧ 20 ≤ 19 + 1) ∧ (18 + 1 < 20) ∧ (17 + 1 < 20 ∧ 17 + 2 < 20) ∧
      (Memory.read [(3, 2), (18, 1)] 18 = Memory.read [(18, 1)] 18 ∧
        Memory.read [(3, 2), (18, 1)] 19 = Memory.read [(18, 1)] 19) := by decide

theorem witness_CanonicalMemoryIsUnique :
    Memory.wf [(0, 1), (19, 255)] ∧ ∀ a, Memory.read [(0, 1), (19, 255)] a = Memory.read [(0, 1), (19, 255)] a :=
  ⟨by decide, fun _ => rfl⟩

/-- `LOAD r0, 18` at 17, the last place for a three-byte instruction. -/
def atLoad : State := running 17 0 0 [(17, 0x01), (19, 0x12)]
/-- `STORE r2, 18` at 17: it stores over its own bytes. -/
def atStore : State := running 17 0 0xBEEF [(17, 0x02), (18, 0x02), (19, 0x12)]
/-- `STORE r0, 0` at 17. -/
def atStorePc : State := running 17 0 0 [(17, 0x02)]
/-- `ADD r0, r2` at 17. -/
def atAdd : State := running 17 0 0xFFFD [(17, 0x03), (19, 0x02)]
/-- `SUB r0, r2` at 17. -/
def atSub : State := running 17 0 18 [(17, 0x04), (19, 0x02)]
/-- HALT at 19. -/
def atHalt : State := running 19 1 2 [(19, 0xFF)]
/-- `LOAD r3, 0` at 0: it faults. -/
def atFault : State := running 0 0 0 [(0, 0x01), (1, 0x03)]

theorem witness_LoadEffect :
    ((2 : Byte).toNat = (2 : RegIdx).val ∧ (18 : Byte).toNat ≤ 18) ∧ (20 ≤ (20 : Byte).toNat) ∧ ((19 : Byte).toNat = 19) ∧
      ((18 : Byte).toNat ≤ 18 ∧ 3 ≤ (3 : Byte).toNat) ∧ (AtInstr atLoad (.load 0 18) ∧ (18 : Byte).toNat ≤ 18) := by
  decide

theorem witness_StoreEffect :
    ((0 : Byte).toNat = (0 : RegIdx).val ∧ (18 : Byte).toNat ≤ 18) ∧ (3 ≤ (3 : Byte).toNat) ∧
      ((2 : Byte).toNat < 3 ∧ 20 ≤ (20 : Byte).toNat) ∧ ((2 : Byte).toNat < 3 ∧ (19 : Byte).toNat = 19) ∧
      ((2 : Byte).toNat = (2 : RegIdx).val ∧ AtInstr atStore (.store 2 18) ∧ (18 : Byte).toNat ≤ 18) := by decide

theorem witness_AddEffect :
    ((2 : Byte).toNat = (2 : RegIdx).val ∧ (0 : Byte).toNat = (0 : RegIdx).val) ∧ (3 ≤ (3 : Byte).toNat) ∧
      ((2 : Byte).toNat < 3 ∧ 3 ≤ (3 : Byte).toNat) ∧
      ((2 : Byte).toNat = (2 : RegIdx).val ∧ AtInstr atAdd (.add 0 2)) := by decide

theorem witness_SubEffect :
    ((2 : Byte).toNat = (2 : RegIdx).val ∧ (0 : Byte).toNat = (0 : RegIdx).val) ∧ (3 ≤ (3 : Byte).toNat) ∧
      ((2 : Byte).toNat < 3 ∧ 3 ≤ (3 : Byte).toNat) ∧
      ((2 : Byte).toNat = (2 : RegIdx).val ∧ AtInstr atSub (.sub 0 2)) := by decide

theorem witness_AluLaws :
    ((1 : Byte).toNat = (1 : RegIdx).val ∧ (2 : Byte).toNat = (2 : RegIdx).val ∧ (1 : RegIdx) ≠ 2) ∧
      (((running 0 5 5 []).x 2).toNat ≤ ((running 0 5 5 []).x 1).toNat) ∧
      (((running 0 4 5 []).x 1).toNat < ((running 0 4 5 []).x 2).toNat) := by decide

theorem witness_HaltEffect :
    ((0xFE : Byte) ≠ 0xFF) ∧
      (atHalt.status = .running ∧ (atHalt.x 0).toNat < 20 ∧ atHalt.mem.read (atHalt.x 0).toNat = 0xFF) := by decide

theorem witness_UnrecognizedIsNoOperation :
    ((0xFE : Byte) ≠ 0x01 ∧ (0xFE : Byte) ≠ 0x02 ∧ (0xFE : Byte) ≠ 0x03 ∧ (0xFE : Byte) ≠ 0x04 ∧ (0xFE : Byte) ≠ 0xFF) ∧
      ((running 17 0 0 [(17, 0xFE)]).status = .running ∧ ((running 17 0 0 [(17, 0xFE)]).x 0).toNat = 17 ∧
        (running 17 0 0 [(17, 0xFE)]).mem.read 17 = 0xFE) ∧
      ((running 18 0 0 [(18, 0xFE)]).status = .running ∧ ((running 18 0 0 [(18, 0xFE)]).x 0).toNat = 18 ∧
        (running 18 0 0 [(18, 0xFE)]).mem.read 18 = 0xFE) := by decide

/-- `STORE r1, 18` at 12 and `LOAD r2, 18` at 15, which ends right below the stored cells. -/
def atStoreLoad : State :=
  running 12 0xBEEF 0 [(12, 0x02), (13, 0x01), (14, 0x12), (15, 0x01), (16, 0x02), (17, 0x12)]
/-- A later state: the LOAD alone, with the stored word. -/
def atLaterLoad : State := running 15 0 0 [(15, 0x01), (16, 0x02), (17, 0x12), (18, 0xEF), (19, 0xBE)]

theorem witness_StoreThenLoadRoundTrip :
    ((1 : Byte).toNat = (1 : RegIdx).val ∧ (2 : Byte).toNat = (2 : RegIdx).val ∧ (18 : Byte).toNat ≤ 18) ∧
      (AtInstr atStoreLoad (.store 1 18) ∧ BytesAt atStoreLoad ((atStoreLoad.x 0).toNat + 3) [0x01, 2, 18] ∧
        ∀ k, k < 3 → (atStoreLoad.x 0).toNat + 3 + k ≠ (18 : Byte).toNat ∧
          (atStoreLoad.x 0).toNat + 3 + k ≠ (18 : Byte).toNat + 1) ∧
      ((next? (step atStoreLoad)).map (wordAt · 18) = some (wordAt atLaterLoad 18) ∧ AtInstr atLaterLoad (.load 2 18)) ∧
      ((2 : RegIdx) ≠ 0) ∧ (AtInstr (running 0 0 0 [(0, 0x01), (2, 0x12)]) (.load 0 18)) := by decide

theorem witness_StepRunsTheDecodedInstruction :
    AtInstr atHalt .halt ∧ AtInstr atLoad (.load 0 18) ∧ AtInstr (running 17 0 0 [(19, 1)]) (.unrecognized 0 0 1) := by
  decide

theorem witness_FetchPhases :
    ((running 20 0 0 []).status = .running ∧ 20 ≤ ((running 20 0 0 []).x 0).toNat) ∧
      (((running 19 0 0 []).x 0).toNat < 20 ∧ Memory.read [(0, 7), (19, 0xFF)] ((running 19 0 0 []).x 0).toNat = 0xFF) ∧
      (((running 18 0 0 []).x 0).toNat = 18 ∧ (running 18 0 0 []).mem.read 18 ≠ 0xFF) ∧
      (((running 19 0 0 []).x 0).toNat = 19 ∧ (running 19 0 0 []).mem.read 19 ≠ 0xFF) ∧
      (((running 17 0 0 []).x 0).toNat ≤ 17 ∧ (running 17 0 0 []).mem.read 17 ≠ 0xFF) := by decide

theorem witness_PcIncrement_halt :
    AtInstr atHalt .halt ∧ exec .halt atHalt = .next (atHalt.setStatus .idle) := ⟨by decide, rfl⟩

theorem witness_PcIncrement_fault :
    AtInstr atFault (.load 3 0) ∧ (next? (exec (.load 3 0) atFault)).map (·.status) = some .faulted := by decide

theorem witness_PcIncrement_completes :
    AtInstr atAdd (.add 0 2) ∧ (Instr.add 0 2 ≠ .halt) ∧ (next? (exec (.add 0 2) atAdd)).map (·.status) = some .running ∧
      AtInstr atStore (.store 2 18) ∧ (next? (exec (.store 2 18) atStore)).map (·.x 0) = some (atStore.x 0) := by decide

theorem witness_ControlTransfers :
    (AtInstr atLoad (.load 0 18) ∧ (next? (step atLoad)).map (·.status) = some .running) ∧
      (AtInstr atAdd (.add 0 2) ∧ (2 : Byte).toNat = (2 : RegIdx).val ∧
        (next? (step atAdd)).map (·.status) = some .running) ∧
      (AtInstr atSub (.sub 0 2) ∧ (next? (step atSub)).map (·.status) = some .running) ∧
      ((next? (step (running 17 0 0 []))).map (fun t => (t.status, (t.x 0).toNat)) = some (.running, 20)) := by decide

theorem witness_PcReadsAsOwnAddress :
    (AtInstr atStorePc (.store 0 0) ∧ (0 : Byte).toNat ≤ 18) ∧
      ((2 : Byte).toNat = (2 : RegIdx).val ∧ (2 : RegIdx) ≠ 0 ∧ AtInstr (running 17 0 0 [(17, 3), (18, 2)]) (.add 2 0)) ∧
      (AtInstr (running 17 0 0 [(17, 4), (18, 2)]) (.sub 2 0)) ∧
      ((2 : Byte).toNat = (2 : RegIdx).val ∧ AtInstr atAdd (.add 0 2)) ∧ (AtInstr atSub (.sub 0 2)) := by decide

theorem witness_FaultsArePrecise : (next? (step atFault)).map (·.status) = some .faulted := by decide

theorem witness_FirstFailingCheckIsRecorded :
    (atFault.status = .running ∧ firstFailingCheck atFault = some (2, .reg, 3)) ∧
      (firstFailingCheck (running 18 0 0 []) = some (1, .mem, 20)) ∧
      (firstFailingCheck (running 0 0 0 [(0, 0x02), (2, 0x13)]) = some (1, .mem, 20)) ∧
      (firstFailingCheck atStore = none) := by decide

theorem witness_StepsExactlyWhileRunning : State.reset.status = .idle ∧ faultedState.status = .faulted := by decide

theorem witness_OnlyHaltStops : (next? (step atHalt)).map (·.status) = some .idle := by decide

theorem witness_OnlyStoreWritesMemory :
    (next? (step atStore)).map (fun t => decide (t.mem.read 18 ≠ atStore.mem.read 18)) = some true := by decide

theorem witness_OnlyNamedRegistersAreWritten :
    (2 : RegIdx) ≠ 0 ∧ (next? (step (running 0 0 0 [(0, 1), (1, 2)]))).map (·.x 2) = some 0x0201 ∧
      (running 0 0 0 [(0, 1), (1, 2)]).x 2 ≠ 0x0201 := by decide

/-- `STORE r1, a` at `p` with `x[1] = v`. -/
def storingAt (p v : Word) (a : Byte) : State :=
  running p v 0 [(p.toNat, 2), (p.toNat + 1, 1), (p.toNat + 2, a)]

/-- `STORE r1, 18` at 16 puts a HALT at 19, the last cell an opcode can be fetched from; at 14, `a = 16` and `a = 18` write the first
and the last byte of the last place for a three-byte instruction; at 15 and 17 the next fetch faults. -/
theorem witness_StoreIsSeenByTheNextFetch :
    ((1 : Byte).toNat = (1 : RegIdx).val ∧ (18 : Byte).toNat ≤ 18) ∧
      (AtInstr (storingAt 16 0xFF00 18) (.store 1 18) ∧ ((storingAt 16 0xFF00 18).x 0).toNat ≤ 16 ∧
        cellAfterStore (storingAt 16 0xFF00 18) ((storingAt 16 0xFF00 18).x 1) 18 19 = 0xFF) ∧
      (AtInstr (storingAt 14 0x0300 16) (.store 1 16) ∧ ((storingAt 14 0x0300 16).x 0).toNat ≤ 14 ∧
        cellAfterStore (storingAt 14 0x0300 16) ((storingAt 14 0x0300 16).x 1) 16 17 ≠ 0xFF) ∧
      (AtInstr (storingAt 14 0x0102 18) (.store 1 18) ∧
        cellAfterStore (storingAt 14 0x0102 18) ((storingAt 14 0x0102 18).x 1) 18 17 ≠ 0xFF) ∧
      (AtInstr (storingAt 15 0x00FE 18) (.store 1 18) ∧ 15 ≤ ((storingAt 15 0x00FE 18).x 0).toNat ∧
        cellAfterStore (storingAt 15 0x00FE 18) ((storingAt 15 0x00FE 18).x 1) 18 18 ≠ 0xFF) ∧
      (AtInstr (storingAt 17 0 0) (.store 1 0) ∧ ¬((storingAt 17 0 0).x 0).toNat ≤ 16) := by decide

theorem witness_StepRefinesThePseudocode : atStore.status = .running ∧ State.reset.status ≠ .running := by decide

theorem witness_ResetState : (19 < 20) ∧ State.reset.status ≠ .running ∧ faultedState.status ≠ .running := by decide

theorem witness_LoadImageReplacesMemory :
    State.reset.status = .idle ∧ (List.replicate 20 (1 : Byte)).length = 20 ∧ (List.replicate 19 (1 : Byte)).length ≠ 20 := by
  decide

/-- RUN from reset returns (P6): the uniqueness and end-state clauses are about something. -/
theorem witness_RunEndsInOneStateOrNever :
    State.reset.status = .idle ∧ RunReturns State.reset (runFor 7 State.reset.startRun) :=
  ⟨rfl, rfl, 7, rfl, by decide⟩

theorem witness_InspectReadsEverything : State.reset.status ≠ .running ∧ faultedState.status ≠ .running := by decide

theorem witness_RunFromReset : (5 < 6) ∧ AtInstr (runFor 5 State.reset.startRun) (.unrecognized 0 0 0) := by decide

theorem witness_OnlyResetLeavesFaulted : faultedState.status = .faulted := by decide

theorem witness_StepKeepsInvariant_runs : atStore.Inv ∧ (next? (step atStore)).isSome = true :=
  ⟨⟨by decide, by decide, nofun, nofun⟩, by decide⟩

theorem witness_StepKeepsInvariant_faults : atFault.Inv ∧ (next? (step atFault)).map (·.status) = some .faulted :=
  ⟨⟨by decide, by decide, nofun, nofun⟩, by decide⟩

theorem witness_ReachableStatesMeetInvariant :
    (running 0 0 0 []).Inv ∧ faultedState.status = .faulted ∧ Reachable (hostOp .run State.reset).1 :=
  ⟨⟨by decide, by decide, nofun, nofun⟩, rfl, .byHost .run .constructed⟩

theorem witness_StepFootprint :
    ((next? (step atStore)).isSome = true ∧ AtInstr atStore (.store 2 18)) ∧
      ((next? (step atLoad)).isSome = true ∧ AtInstr atLoad (.load 0 18)) ∧
      ((next? (step atAdd)).isSome = true ∧ AtInstr atAdd (.add 0 2)) ∧
      ((next? (step atSub)).isSome = true ∧ AtInstr atSub (.sub 0 2)) := by decide

theorem witness_StepFootprint_other :
    (next? (step atHalt)).isSome = true ∧
      ∀ d n : Byte, ¬AtInstr atHalt (.store d n) ∧ ¬AtInstr atHalt (.load d n) ∧ ¬AtInstr atHalt (.add d n) ∧
        ¬AtInstr atHalt (.sub d n) :=
  have short {k : Instr} (hk : (encode k).length = 3) : ¬AtInstr atHalt k := fun h => by
    have := h.2.2.1; rw [hk] at this; exact absurd this (by decide)
  ⟨by decide, fun _ _ => ⟨short rfl, short rfl, short rfl, short rfl⟩⟩

theorem witness_SpinNeverReturns :
    (2 : Byte).toNat = (2 : RegIdx).val ∧ (2 : RegIdx) ≠ 0 ∧ atAdd.x 2 = 0xFFFD ∧ AtInstr atAdd (.add 0 2) ∧
      (atAdd.setStatus .idle).status = .idle ∧ AtInstr ((atAdd.setStatus .idle).setStatus .running) (.add 0 2) := by decide

theorem witness_SavedPcReturnsAfterTheStore :
    (18 : Byte).toNat ≤ 18 ∧ AtInstr (running 0 0 0 [(0, 2), (2, 18)]) (.store 0 18) ∧
      (next? (step (running 0 0 0 [(0, 2), (2, 18)]))).map (wordAt · 18) = some (wordAt (running 5 0 0 [(5, 1), (7, 18)]) 18) ∧
      AtInstr (running 5 0 0 [(5, 1), (7, 18)]) (.load 0 18) := by decide

theorem witness_AssembledImageIsLoadable :
    (assembleItems ([.instr (.load 1 16)] ++ .bytes [1, 2] :: [.instr .halt])).isSome = true ∧
      State.reset.status = .idle := by decide

theorem witness_PlacedWordIsFetched :
    decodeTableWord 24 0x02010E = some (.store 1 14) ∧ (atStore.x 0).toNat ≤ 17 := by decide

end Sys2Proof.Tests
end

/-! SUPPORT. The state and what a step can change of it: the instruction at the PC, the outcomes of an execute phase, the
canonical memory, and the invariant (spec/10_state.md). -/

namespace Sys2Proof.Machine

open Sys2Proof.Claims

/-! ### The bytes of an instruction -/

theorem encode_decodeOperands (b0 b1 b2 : Byte) : encode (decodeOperands b0 b1 b2) = [b0, b1, b2] := by
  rcases decodeOperands_cases b0 b1 b2 with ⟨rfl, h⟩ | ⟨rfl, h⟩ | ⟨rfl, h⟩ | ⟨rfl, h⟩ | ⟨-, h⟩ <;> rw [h] <;> rfl

theorem wellFormed_decodeOperands {b0 : Byte} (h0 : b0 ≠ opHalt) (b1 b2 : Byte) :
    (decodeOperands b0 b1 b2).wellFormed = true := by
  rcases decodeOperands_cases b0 b1 b2 with ⟨-, h⟩ | ⟨-, h⟩ | ⟨-, h⟩ | ⟨-, h⟩ | ⟨⟨h1, h2, h3, h4⟩, h⟩ <;> rw [h]
  case inr.inr.inr.inr => exact wellFormed_unrecognized.mpr ⟨h1, h2, h3, h4, h0⟩
  all_goals rfl

/-- A well-formed instruction other than HALT is what its three bytes decode to. -/
theorem eq_decodeOperands_of_wellFormed {i : Instr} (hw : i.wellFormed = true) (hi : i ≠ .halt) :
    ∃ b0 b1 b2, b0 ≠ opHalt ∧ i = decodeOperands b0 b1 b2 := by
  cases i with
  | load r a => exact ⟨opLoad, r, a, by decide, rfl⟩
  | store r a => exact ⟨opStore, r, a, by decide, rfl⟩
  | add d n => exact ⟨opAdd, d, n, by decide, rfl⟩
  | sub d n => exact ⟨opSub, d, n, by decide, rfl⟩
  | halt => exact absurd rfl hi
  | unrecognized op arg1 arg2 =>
    obtain ⟨h1, h2, h3, h4, h0⟩ := wellFormed_unrecognized.mp hw
    exact ⟨op, arg1, arg2, h0, by simp only [decodeOperands, if_neg h1, if_neg h2, if_neg h3, if_neg h4]⟩

theorem bytesAt_one {s : State} {p : Nat} {b : Byte} :
    BytesAt s p [b] ↔ p < memSize ∧ s.mem.read p = b := by
  refine and_congr ⟨fun h => h, fun h => h⟩ ⟨fun h => h 0 (by simp), fun h k hk => ?_⟩
  obtain rfl : k = 0 := by simpa using hk
  exact h

theorem bytesAt_three {s : State} {p : Nat} {b0 b1 b2 : Byte} :
    BytesAt s p [b0, b1, b2] ↔
      p + 2 < memSize ∧ s.mem.read p = b0 ∧ s.mem.read (p + 1) = b1 ∧ s.mem.read (p + 2) = b2 := by
  refine and_congr ⟨fun h => h, fun h => h⟩
    ⟨fun h => ⟨h 0 (by simp), h 1 (by simp), h 2 (by simp)⟩, fun ⟨h0, h1, h2⟩ k hk => ?_⟩
  match k, hk with
  | 0, _ => exact h0
  | 1, _ => exact h1
  | 2, _ => exact h2

/-! ### The fetch, and the instruction at the PC -/

/-- What a fetch can do (spec/40_execution_cycle.md R60 to R62). -/
theorem fetch_cases (s : State) :
    (memSize ≤ s.pc.toNat ∧ fetch s = .error ⟨.mem, s.pc.toNat⟩) ∨
    ((s.pc.toNat = 18 ∨ s.pc.toNat = 19) ∧ fetch s = .error ⟨.mem, memSize⟩) ∨
    (s.pc.toNat < memSize ∧ s.mem.read s.pc.toNat = opHalt ∧ fetch s = .ok .halt) ∨
    (s.pc.toNat + 2 < memSize ∧ s.mem.read s.pc.toNat ≠ opHalt ∧
      fetch s = .ok (decodeOperands (s.mem.read s.pc.toNat) (s.mem.read (s.pc.toNat + 1))
        (s.mem.read (s.pc.toNat + 2)))) := by
  by_cases hp : memSize ≤ s.pc.toNat
  · exact .inl ⟨hp, fetch_outside hp⟩
  have hp : s.pc.toNat < memSize := by omega
  by_cases hb : s.mem.read s.pc.toNat = opHalt
  · exact .inr (.inr (.inl ⟨hp, hb, fetch_halt hp hb⟩))
  by_cases hp' : s.pc.toNat + 2 < memSize
  · exact .inr (.inr (.inr ⟨hp', hb, fetch_three hp' hb⟩))
  · have := memSize_eq
    exact .inr (.inl ⟨by omega, fetch_operand_outside hp (by omega) hb⟩)

/-- The instruction whose bytes lie at the PC is the one the fetch of a RUNNING block answers. -/
theorem atInstr_iff_fetch {s : State} {i : Instr} : AtInstr s i ↔ s.status = .running ∧ fetch s = .ok i := by
  refine and_congr_right fun _ => ⟨fun ⟨hw, hb⟩ => ?_, fun hf => ?_⟩
  · by_cases hi : i = .halt
    · subst hi
      obtain ⟨hp, h0⟩ := bytesAt_one.mp hb
      exact fetch_halt hp h0
    · obtain ⟨b0, b1, b2, h, rfl⟩ := eq_decodeOperands_of_wellFormed hw hi
      rw [encode_decodeOperands] at hb
      obtain ⟨hp, rfl, rfl, rfl⟩ := bytesAt_three.mp hb
      exact fetch_three hp h
  · rcases fetch_cases s with ⟨-, h⟩ | ⟨-, h⟩ | ⟨hp, hb, h⟩ | ⟨hp, hb, h⟩ <;> cases h.symm.trans hf
    · exact ⟨rfl, bytesAt_one.mpr ⟨hp, hb⟩⟩
    · refine ⟨wellFormed_decodeOperands hb _ _, ?_⟩
      rw [encode_decodeOperands]
      exact bytesAt_three.mpr ⟨hp, rfl, rfl, rfl⟩

theorem atInstr_unique {s : State} {i j : Instr} (hi : AtInstr s i) (hj : AtInstr s j) : i = j :=
  Except.ok.inj ((atInstr_iff_fetch.mp hi).2.symm.trans (atInstr_iff_fetch.mp hj).2)

theorem pc_le_of_fetch_ok {s : State} {i : Instr} (hf : fetch s = .ok i) (hi : i ≠ .halt) : s.pc.toNat ≤ 17 := by
  rcases fetch_cases s with ⟨-, h⟩ | ⟨-, h⟩ | ⟨-, -, h⟩ | ⟨hp, -, h⟩ <;> cases h.symm.trans hf
  · exact absurd rfl hi
  · have := memSize_eq; omega

/-! ### The faults of an execute phase -/

/-- What an instruction's operand bytes can raise: an index outside its space, and no higher than a byte holds
(spec/60_exceptions.md R80, R82). -/
def OutOfBounds.FromOperand (e : OutOfBounds) : Prop :=
  e.index ≤ 255 ∧ (e.space = .mem ∧ memSize ≤ e.index ∨ e.space = .reg ∧ numRegs ≤ e.index)

theorem registerOperand_fault {b : Byte} {e : OutOfBounds} (h : registerOperand b = .error e) : e.FromOperand := by
  rcases registerOperand_cases b with ⟨i, -, h'⟩ | ⟨hb, h'⟩ <;> cases h'.symm.trans h
  exact ⟨Nat.le_of_lt_succ b.isLt, .inr ⟨rfl, hb⟩⟩

/-- The one fault of a two-cell access: the first of `a` and `a + 1` outside memory (spec/20_memory.md R34, R35). -/
theorem fromOperand_pair (a : Byte) :
    (memSize ≤ a.toNat → OutOfBounds.FromOperand ⟨.mem, a.toNat⟩) ∧ OutOfBounds.FromOperand ⟨.mem, memSize⟩ :=
  ⟨fun h => ⟨Nat.le_of_lt_succ a.isLt, .inl ⟨rfl, h⟩⟩, by decide, .inl ⟨rfl, le_rfl⟩⟩

theorem read2_cases (m : Memory) (a : Byte) :
    (a.toNat + 1 < memSize ∧ m.read2 a.toNat = .ok (joinBytes (m.read (a.toNat + 1)) (m.read a.toNat))) ∨
    (∃ e, e.FromOperand ∧ m.read2 a.toNat = .error e) := by
  rcases Nat.lt_trichotomy (a.toNat + 1) memSize with ha | ha | ha
  · exact .inl ⟨ha, Memory.read2_ok ha⟩
  · exact .inr ⟨_, (fromOperand_pair a).2, Memory.read2_error_high ha⟩
  · have ha : memSize ≤ a.toNat := Nat.le_of_lt_succ ha
    exact .inr ⟨_, (fromOperand_pair a).1 ha, Memory.read2_error_low ha⟩

theorem write2_cases (m : Memory) (a : Byte) (v : Word) :
    (a.toNat + 1 < memSize ∧
      m.write2 a.toNat v = .ok ((m.write a.toNat (lowByte v)).write (a.toNat + 1) (highByte v))) ∨
    (∃ e, e.FromOperand ∧ m.write2 a.toNat v = .error e) := by
  rcases Nat.lt_trichotomy (a.toNat + 1) memSize with ha | ha | ha
  · exact .inl ⟨ha, Memory.write2_ok v ha⟩
  · exact .inr ⟨_, (fromOperand_pair a).2, Memory.write2_error_high v ha⟩
  · have ha : memSize ≤ a.toNat := Nat.le_of_lt_succ ha
    exact .inr ⟨_, (fromOperand_pair a).1 ha, Memory.write2_error_low v ha⟩

theorem read2_fault {m : Memory} {a : Byte} {e : OutOfBounds} (h : m.read2 a.toNat = .error e) : e.FromOperand := by
  rcases read2_cases m a with ⟨-, h'⟩ | ⟨e', he, h'⟩ <;> cases h'.symm.trans h
  exact he

theorem write2_fault {m : Memory} {a : Byte} {v : Word} {e : OutOfBounds} (h : m.write2 a.toNat v = .error e) :
    e.FromOperand := by
  rcases write2_cases m a v with ⟨-, h'⟩ | ⟨e', he, h'⟩ <;> cases h'.symm.trans h
  exact he

/-- A completed two-cell write leaves every other cell as it was. -/
theorem read_of_write2_ok {m m' : Memory} {a : Byte} {v : Word} (h : m.write2 a.toNat v = .ok m') {b : Nat}
    (h0 : b ≠ a.toNat) (h1 : b ≠ a.toNat + 1) : m'.read b = m.read b := by
  rcases write2_cases m a v with ⟨-, h'⟩ | ⟨e', he, h'⟩ <;> cases h'.symm.trans h
  rw [Memory.read_write_pair, if_neg h1, if_neg h0]

/-! ### What an execute phase can do -/

/-- The operand byte that names the register an instruction writes (spec/10_state.md R18). -/
def destination : Instr → Option Byte
  | .load r _ => some r
  | .add d _ => some d
  | .sub d _ => some d
  | .store _ _ => none
  | .halt => none
  | .unrecognized _ _ _ => none

theorem destination_eq_some {i : Instr} {d : Byte} :
    destination i = some d ↔ ∃ n, i = .load d n ∨ i = .add d n ∨ i = .sub d n := by
  cases i <;> simp [destination]

/-- The states the execute phase of `i` can leave from `s`: one register or two cells written, the run ended, nothing
done, or the fault of an operand taken. -/
inductive ExecEffect (i : Instr) (s : State) : State → Prop where
  | writesRegister {d : Byte} {j : RegIdx} (v : Word) (hd : destination i = some d) (hj : d.toNat = j.val) :
      ExecEffect i s (s.setX j v)
  | writesCells {r a : Byte} {v : Word} {m : Memory} (hi : i = .store r a) (hm : s.mem.write2 a.toNat v = .ok m) :
      ExecEffect i s (s.setMem m)
  | halts (hi : i = .halt) : ExecEffect i s (s.setStatus .idle)
  | nothing : ExecEffect i s s
  | faults {e : OutOfBounds} (hi : i ≠ .halt) (he : e.FromOperand) : ExecEffect i s (s.takeFault e)

/-- ADD and SUB, whose execute phases differ in the ALU operation only. -/
theorem execEffect_of_aluInto {i : Instr} {f : Word → Word → Word} {d n : Byte} {s t : State} (hd : destination i = some d)
    (hi : i ≠ .halt) (h : complete s (aluInto f d n s) = .next t) : ExecEffect i s t := by
  rcases aluInto_cases f d n s with ⟨j, k, hj, -, h'⟩ | ⟨e, he, h'⟩ <;> rw [h'] at h <;> cases h
  · exact .writesRegister _ hd hj
  · refine .faults hi ?_
    rcases he with he | ⟨-, he⟩ <;> exact registerOperand_fault he

theorem execEffect_of_exec {i : Instr} {s t : State} (h : exec i s = .next t) : ExecEffect i s t := by
  cases i with
  | load r a =>
    rcases execLoad_cases r a s with ⟨j, v, hj, -, h'⟩ | ⟨e, he, h'⟩ <;> cases h'.symm.trans h
    · exact .writesRegister v rfl hj
    · refine .faults nofun ?_
      rcases he with he | ⟨-, he⟩
      · exact read2_fault he
      · exact registerOperand_fault he
  | store r a =>
    rcases execStore_cases r a s with ⟨j, m, -, hm, h'⟩ | ⟨e, he, h'⟩ <;> cases h'.symm.trans h
    · exact .writesCells rfl hm
    · refine .faults nofun ?_
      rcases he with he | ⟨j, -, he⟩
      · exact registerOperand_fault he
      · exact write2_fault he
  | add d n => exact execEffect_of_aluInto rfl nofun h
  | sub d n => exact execEffect_of_aluInto rfl nofun h
  | halt => cases (execHalt_eq s).symm.trans h; exact .halts rfl
  | unrecognized op arg1 arg2 => cases (execUnrecognized_eq op arg1 arg2 s).symm.trans h; exact .nothing

/-- The destination of the instruction at the PC, said of the three mnemonics that have one. -/
theorem exists_destination_iff {s : State} {d : Byte} :
    (∃ i, AtInstr s i ∧ destination i = some d) ↔
      ∃ n, AtInstr s (.load d n) ∨ AtInstr s (.add d n) ∨ AtInstr s (.sub d n) := by
  constructor
  · rintro ⟨i, hi, hd⟩
    obtain ⟨n, rfl | rfl | rfl⟩ := destination_eq_some.mp hd
    · exact ⟨n, .inl hi⟩
    · exact ⟨n, .inr (.inl hi)⟩
    · exact ⟨n, .inr (.inr hi)⟩
  · rintro ⟨n, hi | hi | hi⟩ <;> exact ⟨_, hi, rfl⟩

/-! ### What a step leaves unchanged -/

theorem State.finishStep_x {s : State} {j : RegIdx} (hj : j ≠ 0) : s.finishStep.x j = s.x j := by
  unfold State.finishStep
  split
  · exact s.incrementPc_x hj
  · rfl

theorem ExecEffect.x_eq {i : Instr} {s t : State} (h : ExecEffect i s t) {j : RegIdx}
    (hj : ∀ d, destination i = some d → d.toNat ≠ j.val) : t.x j = s.x j := by
  cases h with
  | @writesRegister d k v hd hk =>
    exact s.x_setX_ne v fun hjk => hj d hd (by rw [hk, hjk])
  | _ => rfl

theorem ExecEffect.read_eq {i : Instr} {s t : State} (h : ExecEffect i s t) {b : Nat}
    (hb : ∀ r a, i = .store r a → b ≠ a.toNat ∧ b ≠ a.toNat + 1) : t.mem.read b = s.mem.read b := by
  cases h with
  | writesCells hi hm =>
    obtain ⟨h0, h1⟩ := hb _ _ hi
    exact read_of_write2_ok hm h0 h1
  | _ => rfl

/-- What a step can do: take the fault of its fetch, or finish the execute phase of the instruction at the PC. -/
theorem step_effect {s t : State} (h : step s = .next t) :
    (∃ e, fetch s = .error e ∧ t = s.takeFault e) ∨ ∃ i u, AtInstr s i ∧ ExecEffect i s u ∧ t = u.finishStep := by
  obtain ⟨hr, ⟨e, hf, rfl⟩ | ⟨i, u, hf, hx, rfl⟩⟩ := step_next_cases h
  · exact .inl ⟨e, hf, rfl⟩
  · exact .inr ⟨i, u, atInstr_iff_fetch.mpr ⟨hr, hf⟩, execEffect_of_exec hx, rfl⟩

/-- A step leaves a register other than the PC unchanged, unless the instruction at the PC names it as its destination. -/
theorem step_x_eq {s t : State} (h : step s = .next t) {j : RegIdx} (h0 : j ≠ 0)
    (hj : ∀ i d, AtInstr s i → destination i = some d → d.toNat ≠ j.val) : t.x j = s.x j := by
  obtain ⟨e, -, rfl⟩ | ⟨i, u, hi, hu, rfl⟩ := step_effect h
  · rfl
  · rw [State.finishStep_x h0, hu.x_eq fun d => hj i d hi]

/-- A step leaves a cell unchanged, unless the instruction at the PC is a STORE to it. -/
theorem step_read_eq {s t : State} (h : step s = .next t) {b : Nat}
    (hb : ∀ r a, AtInstr s (.store r a) → b ≠ a.toNat ∧ b ≠ a.toNat + 1) : t.mem.read b = s.mem.read b := by
  obtain ⟨e, -, rfl⟩ | ⟨i, u, hi, hu, rfl⟩ := step_effect h
  · rfl
  · rw [State.finishStep_mem]
    exact hu.read_eq fun r a hs => hb r a (hs ▸ hi)

/-! ### The canonical memory -/

/-- In canonical form the entries are exactly the cells that do not read 0. -/
theorem Memory.mem_iff_read {m : Memory} (h : m.wf) {c : Host.Cell} : c ∈ m ↔ m.read c.1 = c.2 ∧ c.2 ≠ 0 := by
  induction m with
  | nil => exact iff_of_false List.not_mem_nil fun ⟨h, h'⟩ => h' h.symm
  | cons d m ih =>
    obtain ⟨hp, hc⟩ := h
    obtain ⟨hlt, hp⟩ := List.pairwise_cons.mp hp
    obtain ⟨hd, hm⟩ := List.forall_mem_cons.mp hc
    rw [List.mem_cons, ih ⟨hp, hm⟩, Memory.read_cons]
    by_cases hk : c.1 = d.1
    · have h0 : Memory.read m c.1 = 0 := Memory.read_eq_zero fun e he => hk ▸ (hlt e he).ne'
      rw [if_pos hk, h0]
      constructor
      · rintro (rfl | ⟨h, h'⟩)
        · exact ⟨rfl, hd.2⟩
        · exact absurd h.symm h'
      · exact fun ⟨h, _⟩ => .inl (Prod.ext hk h.symm)
    · rw [if_neg hk, or_iff_right fun h => hk (congrArg Prod.fst h)]

/-! ### The invariant -/

/-- A state without a fault record meets the invariant as soon as its memory does. -/
theorem State.Inv.of_no_record {s : State} (hm : s.mem.wf) (hs : s.status ≠ .faulted) (hf : s.fault = none) : s.Inv where
  mem_wf := hm
  faulted_iff := iff_of_false hs (not_not_intro hf)
  record_legal f h := by cases hf.symm.trans h
  record_at_pc f h := by cases hf.symm.trans h

theorem State.Inv.fault_eq_none {s : State} (h : s.Inv) (hs : s.status ≠ .faulted) : s.fault = none :=
  not_not.mp fun hf => hs (h.faulted_iff.mpr hf)

/-- Taking a fault keeps the invariant, if the record it leaves is legal. -/
theorem State.Inv.takeFault {s : State} (h : s.Inv) {e : OutOfBounds}
    (he : FaultRecord.Legal ⟨faultCode e.space, e.space, e.index, s.pc⟩) : (s.takeFault e).Inv where
  mem_wf := h.mem_wf
  faulted_iff := iff_of_true rfl nofun
  record_legal f hf := by cases hf; exact he
  record_at_pc f hf := by cases hf; rfl

theorem legal_of_fetch_error {s : State} {e : OutOfBounds} (h : fetch s = .error e) :
    FaultRecord.Legal ⟨faultCode e.space, e.space, e.index, s.pc⟩ := by
  rcases fetch_cases s with ⟨hp, h'⟩ | ⟨hp, h'⟩ | ⟨-, -, h'⟩ | ⟨-, -, h'⟩ <;> cases h'.symm.trans h
  · exact .inl ⟨rfl, rfl, .inl ⟨hp, rfl⟩⟩
  · exact .inl ⟨rfl, rfl, .inr (.inl ⟨hp, rfl⟩)⟩

theorem legal_of_fromOperand {e : OutOfBounds} (h : e.FromOperand) {p : Word} (hp : p.toNat ≤ 17) :
    FaultRecord.Legal ⟨faultCode e.space, e.space, e.index, p⟩ := by
  obtain ⟨hle, ⟨hs, hi⟩ | ⟨hs, hi⟩⟩ := h <;> rw [hs]
  · exact .inl ⟨rfl, rfl, .inr (.inr ⟨hp, hi, hle⟩)⟩
  · exact .inr ⟨rfl, rfl, hp, hi, hle⟩

theorem State.Inv.finishStep {s : State} (h : s.Inv) : s.finishStep.Inv := by
  by_cases hs : s.status = .running
  · have hf : s.status ≠ .faulted := by rw [hs]; nofun
    exact .of_no_record (by simpa using h.mem_wf) (by simpa using hf) (by simpa using h.fault_eq_none hf)
  · rwa [State.finishStep_ended hs]

theorem ExecEffect.inv {i : Instr} {s t : State} (h : ExecEffect i s t) (hi : AtInstr s i) (hs : s.Inv) : t.Inv := by
  obtain ⟨hr, hfetch⟩ := atInstr_iff_fetch.mp hi
  have hne : s.status ≠ .faulted := by rw [hr]; nofun
  have hnone := hs.fault_eq_none hne
  cases h with
  | writesRegister => exact .of_no_record hs.mem_wf hne hnone
  | writesCells _ hm => exact .of_no_record (Memory.wf_write2 hs.mem_wf hm) hne hnone
  | halts => exact .of_no_record hs.mem_wf nofun hnone
  | nothing => exact hs
  | faults hnh he => exact hs.takeFault (legal_of_fromOperand he (pc_le_of_fetch_ok hfetch hnh))

theorem step_keeps_inv {s t : State} (hs : s.Inv) (h : step s = .next t) : t.Inv := by
  obtain ⟨e, hf, rfl⟩ | ⟨i, u, hi, hu, rfl⟩ := step_effect h
  · exact hs.takeFault (legal_of_fetch_error hf)
  · exact (hu.inv hi hs).finishStep

theorem reset_inv : State.reset.Inv := .of_no_record Memory.wf_nil nofun rfl

theorem admitted_loadImage {image : List Byte} {st : Status} :
    (HostOp.loadImage image).admitted st = true ↔ st = .idle := by
  cases st <;> simp [HostOp.admitted]

theorem admitted_run {st : Status} : HostOp.run.admitted st = true ↔ st = .idle := by
  cases st <;> simp [HostOp.admitted]

theorem admitted_reset {st : Status} : HostOp.reset.admitted st = true ↔ st ≠ .running := by
  cases st <;> simp [HostOp.admitted]

/-- The states a host operation can leave (spec/70_reset_and_hazards.md R96). -/
theorem hostOp_cases (op : HostOp) (s : State) :
    (hostOp op s).1 = State.reset ∨
    (s.status = .idle ∧ ∃ image : List Byte, image.length = memSize ∧
      (hostOp op s).1 = s.setMem (Memory.writeBytes [] 0 image)) ∨
    (s.status = .idle ∧ (hostOp op s).1 = s.startRun) ∨
    (hostOp op s).1 = s := by
  unfold hostOp
  split
  · next ha =>
    cases op with
    | reset => exact .inl rfl
    | loadImage image =>
      by_cases hl : image.length = memSize
      · exact .inr (.inl ⟨admitted_loadImage.mp ha, image, hl, congrArg Prod.fst (if_pos hl)⟩)
      · exact .inr (.inr (.inr (congrArg Prod.fst (if_neg hl))))
    | run => exact .inr (.inr (.inl ⟨admitted_run.mp ha, rfl⟩))
    | inspect => exact .inr (.inr (.inr rfl))
  · exact .inr (.inr (.inr rfl))

theorem hostOp_keeps_inv (op : HostOp) {s : State} (hs : s.Inv) : (hostOp op s).1.Inv := by
  rcases hostOp_cases op s with h | ⟨hi, image, hl, h⟩ | ⟨hi, h⟩ | h <;> rw [h]
  · exact reset_inv
  · have hne : s.status ≠ .faulted := by rw [hi]; nofun
    exact .of_no_record (Memory.wf_writeBytes Memory.wf_nil (by omega)) hne (hs.fault_eq_none hne)
  · exact .of_no_record hs.mem_wf nofun (hs.fault_eq_none (by rw [hi]; nofun))
  · exact hs

theorem Reachable.inv {s : State} (h : Reachable s) : s.Inv := by
  induction h with
  | constructed => exact reset_inv
  | byHost op _ ih => exact hostOp_keeps_inv op ih
  | byStep _ h ih => exact step_keeps_inv ih h

end Sys2Proof.Machine

/-! ### The obligations -/

namespace Sys2Proof.Proofs

open Sys2Proof.Machine Sys2Proof.Claims

/-- Settles O38: the step is a fault of the fetch or a finished execute phase, and each leaves the invariant. -/
theorem stepKeepsInvariant : Obligations.StepKeepsInvariant :=
  fun _ _ hs h => step_keeps_inv hs h

/-- Settles O39, by induction on how the state is reached. -/
theorem reachableStatesMeetInvariant : Obligations.ReachableStatesMeetInvariant :=
  ⟨fun op _ hs => hostOp_keeps_inv op hs, fun _ h => h.inv⟩

/-- Settles O8: canonical memories that read alike have the same entries, in rising order. -/
theorem canonicalMemoryIsUnique : Obligations.CanonicalMemoryIsUnique := by
  intro m m' hm hm' hread
  have hirrefl : Std.Irrefl fun c c' : Host.Cell => c.1 < c'.1 := ⟨fun _ => Nat.lt_irrefl _⟩
  have hasymm : Std.Asymm fun c c' : Host.Cell => c.1 < c'.1 := ⟨fun _ _ => Nat.lt_asymm⟩
  exact hm.1.eq_of_mem_iff hm'.1 fun c => by rw [Memory.mem_iff_read hm, Memory.mem_iff_read hm', hread]

/-- Settles O27: the contrapositive of the register frame of a step. -/
theorem onlyNamedRegistersAreWritten : Obligations.OnlyNamedRegistersAreWritten := by
  intro s t j h0 h hne
  by_contra hno
  refine hne (step_x_eq h h0 fun i d hi hd hj => ?_)
  obtain ⟨n, hn⟩ := exists_destination_iff.mp ⟨i, hi, hd⟩
  exact hno ⟨d, n, hj, hn⟩

/-- Settles O40: the register and the cell frame of a step, at the one instruction its PC holds. -/
theorem stepFootprint : Obligations.StepFootprint := by
  intro s t h
  refine ⟨fun r a hi => ⟨fun j h0 => ?_, fun b hb hb' => ?_⟩, fun d n hn => ?_, fun hno => ⟨fun j h0 => ?_, fun b => ?_⟩⟩
  · refine step_x_eq h h0 fun k d hk hd => ?_
    cases atInstr_unique hi hk
    cases hd
  · refine step_read_eq h fun r' a' hk => ?_
    cases atInstr_unique hi hk
    exact ⟨hb, hb'⟩
  · obtain ⟨i, hi, hd⟩ := exists_destination_iff.mpr ⟨n, hn⟩
    refine ⟨fun j h0 hj => step_x_eq h h0 fun k d' hk hd' => ?_, fun b => step_read_eq h fun r a hk => ?_⟩
    · cases atInstr_unique hi hk
      cases hd.symm.trans hd'
      exact hj
    · cases atInstr_unique hi hk
      cases hd
  · refine step_x_eq h h0 fun k d hk hd => ?_
    obtain ⟨n, hn⟩ := exists_destination_iff.mp ⟨k, hk, hd⟩
    obtain ⟨-, hload, hadd, hsub⟩ := hno d n
    exact absurd hn (by simp only [hload, hadd, hsub, or_self, not_false_eq_true])
  · exact step_read_eq h fun r a hk => absurd hk (hno r a).1

/-- Settles O30: the reset values, and RESET in the two statuses that admit it. -/
theorem resetState : Obligations.ResetState := by
  refine ⟨State.reset_x, fun a _ => Memory.read_nil a, rfl, rfl, fun s hs => ?_⟩
  exact if_pos (admitted_reset.mpr hs)

/-- Settles O37: no entry in memory, no record, IDLE. -/
theorem resetMeetsInvariant : Obligations.ResetMeetsInvariant :=
  reset_inv

end Sys2Proof.Proofs

/-! SUPPORT. The access primitives in the spec's own operators, and the step of a STORE with the step after it
(spec/20_memory.md). -/

namespace Sys2Proof.Machine

open Sys2Proof.Claims

/-! ### Byte order, written with the operators of R34 and R35 -/

theorem joinBytes_toNat_eq_or (hi lo : Byte) : (joinBytes hi lo).toNat = (hi.toNat <<< 8) ||| lo.toNat := by
  rw [joinBytes_toNat, ← Nat.shiftLeft_add_eq_or_of_lt lo.isLt, Nat.shiftLeft_eq]

theorem lowByte_toNat_eq_and (v : Word) : (lowByte v).toNat = v.toNat &&& 0xFF := by
  rw [lowByte_toNat, Nat.and_two_pow_sub_one_eq_mod v.toNat 8]

theorem highByte_toNat_eq_shiftRight (v : Word) : (highByte v).toNat = v.toNat >>> 8 := by
  rw [highByte_toNat, Nat.shiftRight_eq_div_pow]

theorem lowByte_eq_ofNat (v : Word) : lowByte v = BitVec.ofNat 8 (v.toNat % 256) :=
  BitVec.eq_of_toNat_eq (by simp)

theorem highByte_eq_ofNat (v : Word) : highByte v = BitVec.ofNat 8 (v.toNat / 256) := by
  rw [← highByte_toNat, BitVec.ofNat_toNat, BitVec.setWidth_eq]

/-! ### The access primitives -/

theorem Memory.write1_ok {m : Memory} {a : Nat} (v : Byte) (h : a < memSize) : m.write1 a v = .ok (m.write a v) :=
  if_neg (by omega)

theorem Memory.write1_error {m : Memory} {a : Nat} (v : Byte) (h : memSize ≤ a) : m.write1 a v = .error ⟨.mem, a⟩ :=
  if_pos h

/-- A two-byte read depends on its two cells only (R37). -/
theorem Memory.read2_congr {m m' : Memory} {a : Nat} (h0 : m'.read a = m.read a)
    (h1 : m'.read (a + 1) = m.read (a + 1)) : m'.read2 a = m.read2 a := by
  unfold Memory.read2; rw [h0, h1]

theorem Memory.read_write_pair_low (m : Memory) (a : Nat) (v : Word) :
    ((m.write a (lowByte v)).write (a + 1) (highByte v)).read a = lowByte v := by
  rw [read_write_pair, if_neg (by omega), if_pos rfl]

theorem Memory.read_write_pair_high (m : Memory) (a : Nat) (v : Word) :
    ((m.write a (lowByte v)).write (a + 1) (highByte v)).read (a + 1) = highByte v :=
  read_write_same _ _ _

theorem Memory.read_write_pair_ne (m : Memory) {a b : Nat} (v : Word) (h : b ≠ a) (h' : b ≠ a + 1) :
    ((m.write a (lowByte v)).write (a + 1) (highByte v)).read b = m.read b := by
  rw [read_write_pair, if_neg h', if_neg h]

theorem read_write_pair_eq_cellAfterStore (s : State) (a : Nat) (v : Word) (b : Nat) :
    ((s.mem.write a (lowByte v)).write (a + 1) (highByte v)).read b = cellAfterStore s v a b := by
  rw [Memory.read_write_pair, lowByte_eq_ofNat, highByte_eq_ofNat]
  unfold cellAfterStore
  by_cases hb : b = a
  · rw [if_neg (by omega), if_pos hb, if_pos hb]
  · rw [if_neg hb, if_neg hb]

/-! ### The step at a fetched instruction -/

theorem complete_next (s : State) (r : Except OutOfBounds State) : ∃ u, complete s r = .next u := by
  cases r with
  | ok t => exact ⟨t, rfl⟩
  | error e => exact ⟨s.takeFault e, rfl⟩

/-- Every execute phase completes: a fault of an operand is a next state too (R81). -/
theorem exec_next (i : Instr) (s : State) : ∃ u, exec i s = .next u := by
  cases i with
  | halt => exact ⟨_, execHalt_eq s⟩
  | unrecognized op arg1 arg2 => exact ⟨_, execUnrecognized_eq op arg1 arg2 s⟩
  | _ => exact complete_next _ _

theorem step_of_exec {s u : State} {i : Instr} (hi : AtInstr s i) (hx : exec i s = .next u) :
    step s = .next u.finishStep := by
  obtain ⟨hr, hf⟩ := atInstr_iff_fetch.mp hi
  rw [step_fetched hr hf, hx, finishOutcome]

theorem step_halt {s : State} (hi : AtInstr s .halt) : step s = .next (s.setStatus .idle) :=
  step_of_exec hi (execHalt_eq s)

theorem faultTaken_takeFault (s : State) (e : OutOfBounds) :
    FaultTaken s (s.takeFault e) (faultCode e.space) e.space e.index :=
  ⟨rfl, rfl, fun _ => rfl, fun _ => rfl⟩

/-- A fetch at 18, 19 or 20 faults on index 20, except that of a HALT at 18 or 19 (spec/40_execution_cycle.md R60, R62). -/
theorem fetch_past_last_slot {s : State} (h : 18 ≤ s.pc.toNat) (h' : s.pc.toNat ≤ memSize)
    (hb : s.pc.toNat < memSize → s.mem.read s.pc.toNat ≠ opHalt) : fetch s = .error ⟨.mem, memSize⟩ := by
  rcases Nat.lt_or_eq_of_le h' with hlt | heq
  · exact fetch_operand_outside hlt (Nat.add_le_add_right h 2) (hb hlt)
  · rw [fetch_outside heq.ge, heq]

/-! ### The step of a STORE -/

/-- `s` after the step of a STORE of `v` to `a` (spec/41_load_store.md R68). -/
def State.afterStore (s : State) (a : Nat) (v : Word) : State :=
  (s.setMem ((s.mem.write a (lowByte v)).write (a + 1) (highByte v))).incrementPc

@[simp] theorem State.afterStore_status (s : State) (a : Nat) (v : Word) : (s.afterStore a v).status = s.status := rfl

theorem State.afterStore_read (s : State) (a : Nat) (v : Word) (b : Nat) :
    (s.afterStore a v).mem.read b = cellAfterStore s v a b :=
  read_write_pair_eq_cellAfterStore s a v b

theorem State.afterStore_pc {s : State} (hp : s.pc.toNat ≤ 17) (a : Nat) (v : Word) :
    (s.afterStore a v).pc.toNat = s.pc.toNat + 3 := by
  rw [State.afterStore, State.incrementPc_pc, State.setMem_pc, BitVec.toNat_add]
  exact Nat.mod_eq_of_lt (by omega : s.pc.toNat + 3 < 65536)

theorem State.afterStore_wordAt (s : State) (a : Nat) (v : Word) : wordAt (s.afterStore a v) a = v.toNat := by
  rw [wordAt, afterStore, State.incrementPc_mem, State.setMem_mem, Memory.read_write_pair_high,
    Memory.read_write_pair_low, ← joinBytes_toNat, joinBytes_high_low]

theorem exec_store_ok {r a : Byte} {i : RegIdx} {s : State} (hr : r.toNat = i.val) (ha : a.toNat + 1 < memSize) :
    exec (.store r a) s =
      .next (s.setMem ((s.mem.write a.toNat (lowByte (s.x i))).write (a.toNat + 1) (highByte (s.x i)))) := by
  simp only [exec, execStore, registerOperand_ok hr, memoryOperand_eq, Memory.write2_ok _ ha, ok_bind]
  rfl

theorem step_store_ok {r a : Byte} {i : RegIdx} {s : State} (hs : AtInstr s (.store r a)) (hr : r.toNat = i.val)
    (ha : a.toNat + 1 < memSize) : step s = .next (s.afterStore a.toNat (s.x i)) := by
  rw [step_of_exec hs (exec_store_ok hr ha), State.finishStep_running, State.afterStore]
  exact hs.1

/-- A STORE whose step changes a cell has passed both its checks. -/
theorem store_operands_of_read_ne {r a : Byte} {s t : State} {b : Nat} (hs : AtInstr s (.store r a))
    (h : step s = .next t) (hne : t.mem.read b ≠ s.mem.read b) : r.toNat < numRegs ∧ a.toNat + 1 < memSize := by
  rcases execStore_cases r a s with ⟨i, m, hi, hm, -⟩ | ⟨e, -, hx⟩
  · refine ⟨hi ▸ i.isLt, ?_⟩
    rcases write2_cases s.mem a (s.x i) with ⟨ha, -⟩ | ⟨e, -, he⟩
    · exact ha
    · cases hm.symm.trans he
  · cases h.symm.trans (step_of_exec hs hx)
    rw [State.finishStep_takeFault] at hne
    exact absurd rfl hne

end Sys2Proof.Machine

/-! ### The obligations -/

namespace Sys2Proof.Proofs

open Sys2Proof.Machine Sys2Proof.Claims

/-- Settles O28: the step of the STORE leaves `State.afterStore`, and the three clauses are the three ways the fetch from that
state can go. -/
theorem storeIsSeenByTheNextFetch : Obligations.StoreIsSeenByTheNextFetch := by
  intro r a i s hr ha hs
  have hp : (s.x 0).toNat ≤ 17 := pc_le_of_fetch_ok (atInstr_iff_fetch.mp hs).2 nofun
  have hsize := memSize_eq
  have hstep := step_store_ok hs hr (by omega)
  have hread := s.afterStore_read a.toNat (s.x i)
  have hpc : (s.afterStore a.toNat (s.x i)).pc.toNat = (s.x 0).toNat + 3 := State.afterStore_pc hp a.toNat (s.x i)
  have hword := s.afterStore_wordAt a.toNat (s.x i)
  have hrun : (s.afterStore a.toNat (s.x i)).status = .running := hs.1
  simp only [← hread]
  generalize s.afterStore a.toNat (s.x i) = t at *
  refine ⟨t, hstep, hrun, hpc, hword, fun _ => rfl, fun hle hb => ?_, fun hle hb => ?_, fun hge hb => ?_⟩
  · rw [← hpc] at hb
    have hf : fetch t = .ok .halt := fetch_halt (by omega) hb
    have ht : AtInstr t .halt := atInstr_iff_fetch.mpr ⟨hrun, hf⟩
    exact ⟨ht, hf, step_halt ht⟩
  · have hf := fetch_three (s := t) (by omega) (by rwa [hpc])
    rw [hpc] at hf
    have ht := atInstr_iff_fetch.mpr ⟨hrun, hf⟩
    obtain ⟨u, hu⟩ := exec_next _ t
    exact ⟨_, decode_ne hb _ _ _, ht, hf, u, hu, step_of_exec ht hu⟩
  · have hf : fetch t = .error ⟨.mem, memSize⟩ :=
      fetch_past_last_slot (by omega) (by omega) fun h => hpc ▸ hb (by omega)
    exact ⟨_, step_fetch_fault hrun hf, faultTaken_takeFault t _⟩

/-- Settles O7: the checks in their order, the two cells of the pair written, and the two cells a read depends on. -/
theorem wordWriteLittleEndian : Obligations.WordWriteLittleEndian := by
  intro m a v
  refine ⟨fun ha => Memory.write2_error_low v ha, fun ha ha' => ?_, fun ha => ⟨_, Memory.write2_ok v ha, ?_⟩,
    fun m' h0 h1 => Memory.read2_congr h0 h1⟩
  · obtain rfl : a = 19 := by omega
    exact Memory.write2_error_high v rfl
  · refine ⟨?_, ?_, fun b hb hb' => Memory.read_write_pair_ne m v hb hb', fun ha' => ⟨_, Memory.read2_ok ha', ?_⟩⟩
    · rw [Memory.read_write_pair_low, lowByte_toNat_eq_and]
    · rw [Memory.read_write_pair_high, highByte_toNat_eq_shiftRight]
    · rw [joinBytes_toNat_eq_or, Memory.read_write_pair_high, Memory.read_write_pair_ne m v (by omega) (by omega),
        highByte_toNat_eq_shiftRight]

/-- Settles O6: one clause per check, and the value of the pair as an `or`. -/
theorem wordReadLittleEndian : Obligations.WordReadLittleEndian := by
  intro m a
  refine ⟨fun ha => Memory.read2_error_low ha, fun ha ha' => ?_,
    fun ha => ⟨_, Memory.read2_ok ha, joinBytes_toNat_eq_or _ _⟩⟩
  obtain rfl : a = 19 := by omega
  exact Memory.read2_error_high rfl

/-- Settles O26: by the cell frame of a step the instruction is a STORE to the cell, and its checks passed. -/
theorem onlyStoreWritesMemory : Obligations.OnlyStoreWritesMemory := by
  intro s t b h hne
  obtain ⟨r, a, hs, hb⟩ : ∃ r a, AtInstr s (.store r a) ∧ (b = a.toNat ∨ b = a.toNat + 1) := by
    by_contra hno
    refine hne (step_read_eq h fun r a hs => ?_)
    exact not_or.mp fun hb => hno ⟨r, a, hs, hb⟩
  obtain ⟨hr, ha⟩ := store_operands_of_read_ne hs h hne
  have hsize := memSize_eq
  exact ⟨r, a, hs, hr, by omega, hb⟩

/-- Settles O5: one law per side of the boundary, for the read and for the write. -/
theorem byteAccess : Obligations.ByteAccess :=
  fun m a v =>
    ⟨fun ha => ⟨Memory.read1_error ha, Memory.write1_error v ha⟩, fun ha =>
      ⟨Memory.read1_ok ha, _, Memory.write1_ok v ha, m.read_write_same a v, fun _ hb => m.read_write_ne v hb⟩⟩

end Sys2Proof.Proofs

/-! SUPPORT. The decoder and the encoder as inverses, a step that leaves the state as it is, and the assembled image
(spec/30_encoding.md). -/

namespace Sys2Proof

/-- Every byte of an instruction is read back: HALT's one, and the three of every other instruction (R50, R52, R56). -/
theorem decode_encode {i : Instr} (hw : i.wellFormed = true) (rest : List Byte) :
    decode (encode i ++ rest) = .ok (i, rest) := by
  by_cases hi : i = .halt
  · subst hi
    exact decode_halt rest
  · obtain ⟨b0, b1, b2, h0, rfl⟩ := Machine.eq_decodeOperands_of_wellFormed hw hi
    rw [Machine.encode_decodeOperands]
    exact decode_ne h0 b1 b2 rest

/-- What the decoder accepts: HALT's opcode, or another opcode and two operand bytes (R49, R56). -/
theorem decode_eq_ok {bs rest : List Byte} {i : Instr} (h : decode bs = .ok (i, rest)) :
    (i = .halt ∧ bs = opHalt :: rest) ∨
    ∃ b0 b1 b2, b0 ≠ opHalt ∧ i = decodeOperands b0 b1 b2 ∧ bs = b0 :: b1 :: b2 :: rest := by
  match bs, h with
  | b0 :: tail, h =>
    by_cases h0 : b0 = opHalt
    · subst h0
      cases h
      exact .inl ⟨rfl, rfl⟩
    · replace h := (if_neg h0).symm.trans h
      match tail, h with
      | b1 :: b2 :: _, h =>
        cases h
        exact .inr ⟨b0, b1, b2, h0, rfl, rfl⟩

end Sys2Proof

namespace Sys2Proof.Machine

open Sys2Proof.Claims

/-! ### A step of ADD, and a step that leaves the state as it is -/

@[simp] theorem State.setX_self (s : State) (i : RegIdx) : s.setX i (s.x i) = s := by
  simp [State.setX, State.x]

theorem exec_add_ok {d n : Byte} {i j : RegIdx} (s : State) (hd : d.toNat = i.val) (hn : n.toNat = j.val) :
    exec (.add d n) s = .next (s.setX i (s.x i + s.x j)) := by
  simp only [exec, execAdd, aluInto, registerOperand_ok hd, registerOperand_ok hn, ok_bind, aluAdd_eq]
  rfl

theorem step_add_ok {d n : Byte} {i j : RegIdx} {s : State} (hs : AtInstr s (.add d n)) (hd : d.toNat = i.val)
    (hn : n.toNat = j.val) : step s = .next (s.setX i (s.x i + s.x j)).incrementPc := by
  rw [step_of_exec hs (exec_add_ok s hd hn), State.finishStep_running]
  exact hs.1

/-- `ADD r0, rX` with `x[X] = 0xFFFD` takes 3 off the PC, and the increment adds it again (R58). -/
theorem step_add_spin {n : Byte} {j : RegIdx} {s : State} (hs : AtInstr s (.add 0 n)) (hn : n.toNat = j.val)
    (hj : s.x j = 0xFFFD) : step s = .next s := by
  have hwrap : s.x 0 + 0xFFFD + insnStride = s.x 0 := by
    rw [BitVec.add_assoc]
    exact BitVec.add_zero _
  rw [step_add_ok hs (i := 0) rfl hn, hj, State.incrementPc, State.pc_setX_zero, State.setX_setX, hwrap,
    State.setX_self]

theorem runFor_of_step_self {s : State} (h : step s = .next s) (n : Nat) : runFor n s = s := by
  induction n with
  | zero => rfl
  | succ n ih => rw [runFor, stepOrStay, h, ih]

/-! ### The assembled image -/

theorem assembleItems_eq_some {items : List AsmItem} {image : List Byte} (h : assembleItems items = some image) :
    (items.flatMap AsmItem.toBytes).length ≤ memSize ∧
      image = items.flatMap AsmItem.toBytes ++
        List.replicate (memSize - (items.flatMap AsmItem.toBytes).length) 0 := by
  simp only [assembleItems] at h
  split at h
  · next hl => exact ⟨hl, (Option.some.inj h).symm⟩
  · cases h

theorem length_of_assembleItems {items : List AsmItem} {image : List Byte} (h : assembleItems items = some image) :
    image.length = memSize := by
  obtain ⟨hle, rfl⟩ := assembleItems_eq_some h
  rw [List.length_append, List.length_replicate, Nat.add_sub_of_le hle]

theorem hostOp_loadImage_done {s : State} (hs : s.status = .idle) {image : List Byte} (hl : image.length = memSize) :
    hostOp (.loadImage image) s = (s.setMem (Memory.writeBytes [] 0 image), .done) :=
  (if_pos (admitted_loadImage.mpr hs)).trans (if_pos hl)

end Sys2Proof.Machine

/-! ### The obligations -/

namespace Sys2Proof.Proofs

open Sys2Proof.Machine Sys2Proof.Claims

/-- Settles O2: HALT is read from its opcode alone, every other instruction from its three bytes. -/
theorem decodeInvertsEncode : Obligations.DecodeInvertsEncode :=
  fun _ rest hw => decode_encode hw rest

/-- Settles O3: the two forms of what the decoder accepts, told apart by the first byte. -/
theorem encodeInvertsDecode : Obligations.EncodeInvertsDecode := by
  intro bs rest i h
  obtain ⟨rfl, rfl⟩ | ⟨b0, b1, b2, h0, rfl, rfl⟩ := decode_eq_ok h
  · exact ⟨rfl, rfl, rfl⟩
  · have hhead : (b0 :: b1 :: b2 :: rest).head? ≠ some 0xFF := fun hb => h0 (Option.some.inj hb)
    rw [encode_decodeOperands, if_neg hhead]
    exact ⟨wellFormed_decodeOperands h0 b1 b2, rfl, rfl⟩

/-- Settles O41: the spinning step is a fixed point, so every number of steps from RUN's start leaves the state there. -/
theorem spinNeverReturns : Obligations.SpinNeverReturns := by
  intro n j s hn _ hj
  refine ⟨fun hs => step_add_spin hs hn hj, fun hidle hs => ⟨hidle, fun k => ?_⟩⟩
  have hspin : step s.startRun = .next s.startRun := step_add_spin hs hn hj
  rw [runFor_of_step_self hspin, State.startRun_status]

/-- Settles O43: the image is the items' bytes in order and then zeros up to 20 bytes. -/
theorem assembledImageIsLoadable : Obligations.AssembledImageIsLoadable := by
  intro before after item image h
  have hlen := length_of_assembleItems h
  obtain ⟨-, rfl⟩ := assembleItems_eq_some h
  refine ⟨hlen, fun k hk hge => ?_, ?_, fun s hs => ?_⟩
  · rw [List.getElem_append_right hge, List.getElem_replicate]
  · rw [List.flatMap_append, List.flatMap_cons, List.append_assoc, List.append_assoc, List.drop_left, List.take_left]
  · rw [hostOp_loadImage_done hs hlen]

/-- Settles O4: each clause is the decoding of one instruction's encoding. -/
theorem decoderFollowsTheOpcodeMap : Obligations.DecoderFollowsTheOpcodeMap :=
  ⟨fun rest => decode_halt rest,
    fun b1 b2 => decode_encode (i := .load b1 b2) rfl,
    fun b1 b2 => decode_encode (i := .store b1 b2) rfl,
    fun b1 b2 => decode_encode (i := .add b1 b2) rfl,
    fun b1 b2 => decode_encode (i := .sub b1 b2) rfl,
    fun b0 b1 b2 rest h1 h2 h3 h4 h0 =>
      decode_encode (i := .unrecognized b0 b1 b2) (wellFormed_unrecognized.mpr ⟨h1, h2, h3, h4, h0⟩) rest⟩

/-- Settles O1: the six words are instances of the opcode map's clauses. -/
theorem specWordsDecode : Obligations.SpecWordsDecode := by
  obtain ⟨hhalt, hload, hstore, hadd, hsub, hother⟩ := decoderFollowsTheOpcodeMap
  exact ⟨hload _ _ _, hstore _ _ _, hadd _ _ _, hsub _ _ _, hhalt _,
    hother _ _ _ _ (by decide) (by decide) (by decide) (by decide) (by decide)⟩

end Sys2Proof.Proofs

/-! SUPPORT. The step against the pseudocode on natural numbers, how a step ends, and the run as its repetition
(spec/40_execution_cycle.md). -/

namespace Sys2Proof.Machine

open Sys2Proof.Claims

/-! ### The execute phases that complete, and those that fault, one equation per check -/

theorem aluInto_ok {d n : Byte} {i j : RegIdx} (f : Word → Word → Word) (s : State) (hd : d.toNat = i.val)
    (hn : n.toNat = j.val) : aluInto f d n s = .ok (s.setX i (f (s.x i) (s.x j))) := by
  rw [aluInto, registerOperand_ok hd, registerOperand_ok hn]
  rfl

theorem aluInto_error_first {d n : Byte} (f : Word → Word → Word) (s : State) (hd : numRegs ≤ d.toNat) :
    aluInto f d n s = .error ⟨.reg, d.toNat⟩ := by
  rw [aluInto, registerOperand_error hd]
  rfl

theorem aluInto_error_second {d n : Byte} {i : RegIdx} (f : Word → Word → Word) (s : State) (hd : d.toNat = i.val)
    (hn : numRegs ≤ n.toNat) : aluInto f d n s = .error ⟨.reg, n.toNat⟩ := by
  rw [aluInto, registerOperand_ok hd, registerOperand_error hn]
  rfl

theorem exec_sub_ok {d n : Byte} {i j : RegIdx} (s : State) (hd : d.toNat = i.val) (hn : n.toNat = j.val) :
    exec (.sub d n) s = .next (s.setX i (s.x i - s.x j)) := by
  rw [exec, execSub, aluInto_ok aluSub s hd hn, aluSub_eq, complete_ok]

theorem step_sub_ok {d n : Byte} {i j : RegIdx} {s : State} (hs : AtInstr s (.sub d n)) (hd : d.toNat = i.val)
    (hn : n.toNat = j.val) : step s = .next (s.setX i (s.x i - s.x j)).incrementPc := by
  rw [step_of_exec hs (exec_sub_ok s hd hn), State.finishStep_running]
  exact hs.1

theorem exec_load_ok {r a : Byte} {i : RegIdx} {s : State} (hr : r.toNat = i.val) (ha : a.toNat + 1 < memSize) :
    exec (.load r a) s = .next (s.setX i (joinBytes (s.mem.read (a.toNat + 1)) (s.mem.read a.toNat))) := by
  rw [exec, execLoad, memoryOperand_eq, Memory.read2_ok ha, registerOperand_ok hr]
  rfl

theorem exec_load_memory_fault {r a : Byte} {s : State} {e : OutOfBounds} (h : s.mem.read2 a.toNat = .error e) :
    exec (.load r a) s = .next (s.takeFault e) := by
  rw [exec, execLoad, memoryOperand_eq, h]
  rfl

theorem exec_load_register_fault {r a : Byte} {s : State} (ha : a.toNat + 1 < memSize) (hr : numRegs ≤ r.toNat) :
    exec (.load r a) s = .next (s.takeFault ⟨.reg, r.toNat⟩) := by
  rw [exec, execLoad, memoryOperand_eq, Memory.read2_ok ha, registerOperand_error hr]
  rfl

theorem exec_store_register_fault {r a : Byte} {s : State} (hr : numRegs ≤ r.toNat) :
    exec (.store r a) s = .next (s.takeFault ⟨.reg, r.toNat⟩) := by
  rw [exec, execStore, registerOperand_error hr]
  rfl

theorem exec_store_memory_fault {r a : Byte} {i : RegIdx} {s : State} {e : OutOfBounds} (hr : r.toNat = i.val)
    (h : s.mem.write2 a.toNat (s.x i) = .error e) : exec (.store r a) s = .next (s.takeFault e) := by
  simp only [exec, execStore, registerOperand_ok hr, memoryOperand_eq, ok_bind, h, error_bind, complete_error]

/-! ### The state read as numbers: one equation per update -/

@[simp] theorem numbers_mem (s : State) (a : Nat) : (numbers s).mem a = (s.mem.read a).toNat := rfl

@[simp] theorem numbers_x (s : State) (i : RegIdx) : (numbers s).x i = (s.x i).toNat := dif_pos i.isLt

@[simp] theorem numbers_x_zero (s : State) : (numbers s).x 0 = s.pc.toNat := rfl

theorem numbers_takeFault (s : State) (e : OutOfBounds) :
    numbers (s.takeFault e) = raiseN (numbers s) (faultCode e.space) e.space e.index := rfl

theorem numbers_setX (s : State) (i : RegIdx) (v : Word) :
    numbers (s.setX i v) = { numbers s with x := put (numbers s).x i v.toNat } := by
  have hx : (numbers (s.setX i v)).x = put (numbers s).x i v.toNat := by
    funext k
    by_cases hk : k < numRegs
    · obtain ⟨j, rfl⟩ : ∃ j : RegIdx, k = j := ⟨⟨k, hk⟩, rfl⟩
      simp only [put, numbers_x, State.x_setX, apply_ite BitVec.toNat, Fin.ext_iff]
    · have hne : k ≠ i := fun h => hk (h ▸ i.isLt)
      simp [numbers, put, hk, hne]
  change { numbers s with x := (numbers (s.setX i v)).x } = _
  rw [hx]

theorem numbers_setMem_write (s : State) (m : Memory) (a : Nat) (v : Byte) :
    numbers (s.setMem (m.write a v)) = { numbers s with mem := put (numbers (s.setMem m)).mem a v.toNat } := by
  have hm : (numbers (s.setMem (m.write a v))).mem = put (numbers (s.setMem m)).mem a v.toNat := by
    funext b
    rw [numbers_mem, State.setMem_mem, Memory.read_write, apply_ite BitVec.toNat]
    rfl
  change { numbers s with mem := (numbers (s.setMem (m.write a v))).mem } = _
  rw [hm]

theorem numbers_incrementPc (s : State) : numbers s.incrementPc = incrN (numbers s) := by
  rw [State.incrementPc, numbers_setX, BitVec.toNat_add]
  rfl

/-- A completed execute phase is followed by the increment, on numbers too. -/
theorem numbers_finishStep {s : State} (hr : s.status = .running) : numbers s.finishStep = incrN (numbers s) := by
  rw [State.finishStep_running hr, numbers_incrementPc]

/-- A fault ends the step. -/
theorem numbers_finishStep_takeFault (s : State) (e : OutOfBounds) :
    numbers (s.takeFault e).finishStep = raiseN (numbers s) (faultCode e.space) e.space e.index := by
  rw [State.finishStep_takeFault, numbers_takeFault]

/-! ### The execute phases against the pseudocode -/

/-- The shape `addN` and `subN` share: `g` is the operation on the two registers' numbers. -/
def aluN (g : Nat → Nat → Nat) (n : Numbers) (d s : Nat) : Numbers :=
  if 3 ≤ d then raiseN n 2 .reg d
  else if 3 ≤ s then raiseN n 2 .reg s
  else incrN { n with x := put n.x d (g (n.x d) (n.x s)) }

theorem addN_eq_aluN (n : Numbers) (d s : Nat) : addN n d s = aluN (fun a b => (a + b) % 65536) n d s := rfl

theorem subN_eq_aluN (n : Numbers) (d s : Nat) :
    subN n d s = aluN (fun a b => (((a : Int) - b) % 65536).toNat) n d s := rfl

theorem numbers_aluInto {f : Word → Word → Word} {g : Nat → Nat → Nat} {d n : Byte} {s t : State}
    (hfg : ∀ a b, (f a b).toNat = g a.toNat b.toNat) (hr : s.status = .running)
    (h : complete s (aluInto f d n s) = .next t) : numbers t.finishStep = aluN g (numbers s) d.toNat n.toNat := by
  have hregs := numRegs_eq
  unfold aluN
  rcases registerOperand_cases d with ⟨i, hd, -⟩ | ⟨hd, -⟩
  · rw [if_neg (by omega)]
    rcases registerOperand_cases n with ⟨j, hn, -⟩ | ⟨hn, -⟩
    · rw [aluInto_ok f s hd hn] at h
      cases h
      rw [if_neg (by omega), numbers_finishStep (by exact hr), numbers_setX, hd, hn, numbers_x, numbers_x, hfg]
    · rw [aluInto_error_second f s hd hn] at h
      cases h
      rw [if_pos hn]
      exact numbers_finishStep_takeFault s _
  · rw [aluInto_error_first f s hd] at h
    cases h
    rw [if_pos hd]
    exact numbers_finishStep_takeFault s _

theorem numbers_exec_load {r a : Byte} {s t : State} (hr : s.status = .running) (h : exec (.load r a) s = .next t) :
    numbers t.finishStep = loadN (numbers s) r.toNat a.toNat := by
  have hsize := memSize_eq
  have hregs := numRegs_eq
  unfold loadN
  rcases Nat.lt_trichotomy (a.toNat + 1) memSize with ha | ha | ha
  · rw [if_neg (by omega), if_neg (by omega)]
    rcases registerOperand_cases r with ⟨i, hi, -⟩ | ⟨hi, -⟩
    · cases h.symm.trans (exec_load_ok hi ha)
      rw [if_neg (by omega), numbers_finishStep (by exact hr), numbers_setX, joinBytes_toNat_eq_or, hi]
      rfl
    · cases h.symm.trans (exec_load_register_fault ha hi)
      rw [if_pos hi]
      exact numbers_finishStep_takeFault s _
  · cases h.symm.trans (exec_load_memory_fault (Memory.read2_error_high ha))
    rw [if_neg (by omega), if_pos (by omega), ha]
    exact numbers_finishStep_takeFault s _
  · have ha : memSize ≤ a.toNat := Nat.le_of_lt_succ ha
    cases h.symm.trans (exec_load_memory_fault (Memory.read2_error_low ha))
    rw [if_pos ha]
    exact numbers_finishStep_takeFault s _

theorem numbers_exec_store {r a : Byte} {s t : State} (hr : s.status = .running) (h : exec (.store r a) s = .next t) :
    numbers t.finishStep = storeN (numbers s) r.toNat a.toNat := by
  have hsize := memSize_eq
  have hregs := numRegs_eq
  unfold storeN
  rcases registerOperand_cases r with ⟨i, hi, -⟩ | ⟨hi, -⟩
  · rw [if_neg (by omega)]
    rcases Nat.lt_trichotomy (a.toNat + 1) memSize with ha | ha | ha
    · cases h.symm.trans (exec_store_ok hi ha)
      rw [if_neg (by omega), if_neg (by omega), numbers_finishStep (by exact hr), numbers_setMem_write,
        numbers_setMem_write, lowByte_toNat_eq_and, highByte_toNat_eq_shiftRight, hi, numbers_x]
      rfl
    · cases h.symm.trans (exec_store_memory_fault hi (Memory.write2_error_high _ ha))
      rw [if_neg (by omega), if_pos (by omega), ha]
      exact numbers_finishStep_takeFault s _
    · have ha : memSize ≤ a.toNat := Nat.le_of_lt_succ ha
      cases h.symm.trans (exec_store_memory_fault hi (Memory.write2_error_low _ ha))
      rw [if_pos ha]
      exact numbers_finishStep_takeFault s _
  · cases h.symm.trans (exec_store_register_fault hi)
    rw [if_pos hi]
    exact numbers_finishStep_takeFault s _

/-- The exact difference's non-negative remainder is what the subtraction of words gives (spec/42_arithmetic.md R71). -/
theorem toNat_sub_eq_emod (a b : Word) : ((a - b).toNat : Int) = ((a.toNat : Int) - b.toNat) % 65536 := by
  have := a.isLt
  have := b.isLt
  rw [BitVec.toNat_sub]
  omega

/-- The rest of the pseudocode's step once it has decoded `i`: the execute phase and the increment. -/
def execN (i : Instr) (n : Numbers) : Numbers :=
  match i with
  | .load r a => loadN n r.toNat a.toNat
  | .store r a => storeN n r.toNat a.toNat
  | .add d m => addN n d.toNat m.toNat
  | .sub d m => subN n d.toNat m.toNat
  | .halt => { n with status := .idle }
  | .unrecognized _ _ _ => incrN n

/-- The commuting square of one instruction. -/
theorem numbers_exec {i : Instr} {s t : State} (hr : s.status = .running) (h : exec i s = .next t) :
    numbers t.finishStep = execN i (numbers s) := by
  cases i with
  | load r a => exact numbers_exec_load hr h
  | store r a => exact numbers_exec_store hr h
  | add d n =>
    rw [execN, addN_eq_aluN]
    refine numbers_aluInto (fun a b => ?_) hr h
    rw [aluAdd_eq, BitVec.toNat_add]
  | sub d n =>
    rw [execN, subN_eq_aluN]
    refine numbers_aluInto (fun a b => ?_) hr h
    rw [aluSub_eq, ← toNat_sub_eq_emod, Int.toNat_natCast]
  | halt => cases (execHalt_eq s).symm.trans h; rfl
  | unrecognized op arg1 arg2 =>
    cases (execUnrecognized_eq op arg1 arg2 s).symm.trans h
    exact numbers_finishStep hr

/-! ### The fetch against the pseudocode -/

theorem execN_decodeOperands (b0 b1 b2 : Byte) (n : Numbers) :
    execN (decodeOperands b0 b1 b2) n =
      if b0.toNat = 0x01 then loadN n b1.toNat b2.toNat
      else if b0.toNat = 0x02 then storeN n b1.toNat b2.toNat
      else if b0.toNat = 0x03 then addN n b1.toNat b2.toNat
      else if b0.toNat = 0x04 then subN n b1.toNat b2.toNat
      else incrN n := by
  have h1 : b0.toNat = 0x01 ↔ b0 = opLoad := BitVec.toNat_inj (y := opLoad)
  have h2 : b0.toNat = 0x02 ↔ b0 = opStore := BitVec.toNat_inj (y := opStore)
  have h3 : b0.toNat = 0x03 ↔ b0 = opAdd := BitVec.toNat_inj (y := opAdd)
  have h4 : b0.toNat = 0x04 ↔ b0 = opSub := BitVec.toNat_inj (y := opSub)
  simp only [decodeOperands, apply_ite (execN · n), h1, h2, h3, h4]
  rfl

theorem toNat_eq_haltOpcode {b : Byte} : b.toNat = 0xFF ↔ b = opHalt := BitVec.toNat_inj (y := opHalt)

theorem stepN_outside {s : State} (h : memSize ≤ s.pc.toNat) :
    stepN (numbers s) = raiseN (numbers s) 1 .mem s.pc.toNat := if_pos h

theorem stepN_halt {s : State} (h : s.pc.toNat < memSize) (hb : s.mem.read s.pc.toNat = opHalt) :
    stepN (numbers s) = execN .halt (numbers s) := by
  have hsize := memSize_eq
  rw [stepN, numbers_x_zero, if_neg (by omega), numbers_mem, if_pos (toNat_eq_haltOpcode.mpr hb)]
  rfl

theorem stepN_operand_outside {s : State} (h : s.pc.toNat < memSize) (h' : memSize ≤ s.pc.toNat + 2)
    (hb : s.mem.read s.pc.toNat ≠ opHalt) : stepN (numbers s) = raiseN (numbers s) 1 .mem memSize := by
  have hsize := memSize_eq
  rw [stepN, numbers_x_zero, if_neg (by omega), numbers_mem, if_neg (mt toNat_eq_haltOpcode.mp hb)]
  by_cases h1 : 20 ≤ s.pc.toNat + 1
  · rw [if_pos h1, (by omega : s.pc.toNat + 1 = memSize)]
  · rw [if_neg h1, if_pos h', (by omega : s.pc.toNat + 2 = memSize)]

theorem stepN_three {s : State} (h : s.pc.toNat + 2 < memSize) (hb : s.mem.read s.pc.toNat ≠ opHalt) :
    stepN (numbers s) =
      execN (decodeOperands (s.mem.read s.pc.toNat) (s.mem.read (s.pc.toNat + 1)) (s.mem.read (s.pc.toNat + 2)))
        (numbers s) := by
  have hsize := memSize_eq
  rw [stepN, numbers_x_zero, if_neg (by omega), numbers_mem, if_neg (mt toNat_eq_haltOpcode.mp hb),
    if_neg (by omega), if_neg (by omega), execN_decodeOperands]
  rfl

/-- The pseudocode's step, told by what the machine's fetch answers. -/
theorem stepN_eq_of_fetch (s : State) :
    stepN (numbers s) = match fetch s with
      | .error e => numbers (s.takeFault e)
      | .ok i => execN i (numbers s) := by
  by_cases hp : memSize ≤ s.pc.toNat
  · rw [fetch_outside hp, stepN_outside hp]
    rfl
  have hp : s.pc.toNat < memSize := by omega
  by_cases hb : s.mem.read s.pc.toNat = opHalt
  · rw [fetch_halt hp hb, stepN_halt hp hb]
  by_cases hp' : s.pc.toNat + 2 < memSize
  · rw [fetch_three hp' hb, stepN_three hp' hb]
  · rw [fetch_operand_outside hp (by omega) hb, stepN_operand_outside hp (by omega) hb]
    rfl

/-- The commuting square of a step. -/
theorem numbers_step {s t : State} (h : step s = .next t) : numbers t = stepN (numbers s) := by
  rw [stepN_eq_of_fetch]
  obtain ⟨hr, ⟨e, hf, rfl⟩ | ⟨i, u, hf, hx, rfl⟩⟩ := step_next_cases h <;> rw [hf]
  exact numbers_exec hr hx

/-! ### How a step ends -/

/-- There is a step in RUNNING alone, and there always one: a fault is a next state too. -/
theorem exists_step_iff {s : State} : (∃ t, step s = .next t) ↔ s.status = .running := by
  refine ⟨fun ⟨_, h⟩ => (step_next_cases h).1, fun hr => ?_⟩
  cases hf : fetch s with
  | error e => exact ⟨_, step_fetch_fault hr hf⟩
  | ok i =>
    obtain ⟨u, hu⟩ := exec_next i s
    exact ⟨_, step_of_exec (atInstr_iff_fetch.mpr ⟨hr, hf⟩) hu⟩

theorem step_idle {s : State} (h : s.status = .idle) : step s = .fault .noStepInIdle := by
  unfold step; rw [h]

theorem step_faulted {s : State} (h : s.status = .faulted) : step s = .fault .noStepInFaulted := by
  unfold step; rw [h]

/-- An execute phase ends the run, takes a fault, or leaves the status as it is. -/
theorem ExecEffect.status_cases {i : Instr} {s t : State} (h : ExecEffect i s t) :
    (i = .halt ∧ t = s.setStatus .idle) ∨ (∃ e, t = s.takeFault e) ∨ t.status = s.status := by
  cases h with
  | halts hi => exact .inl ⟨hi, rfl⟩
  | faults _ _ => exact .inr (.inl ⟨_, rfl⟩)
  | _ => exact .inr (.inr rfl)

theorem pcPlus3_incrementPc (s : State) : PcPlus3 s s.incrementPc := by
  refine ⟨?_, fun j hj => s.incrementPc_x hj, fun _ => rfl, rfl, rfl⟩
  change s.incrementPc.pc.toNat = _
  rw [State.incrementPc_pc, BitVec.toNat_add]
  rfl

/-! ### The run as a repeated step -/

theorem stepOrStay_stopped {s : State} (h : s.status ≠ .running) : stepOrStay s = s := by
  unfold stepOrStay
  split
  · next t ht => exact absurd (exists_step_iff.mp ⟨t, ht⟩) h
  · rfl
  · rfl

theorem runFor_stopped {s : State} (h : s.status ≠ .running) (n : Nat) : runFor n s = s := by
  induction n with
  | zero => rfl
  | succ n ih => rw [runFor, stepOrStay_stopped h, ih]

theorem runFor_add (m n : Nat) (s : State) : runFor (m + n) s = runFor n (runFor m s) := by
  induction m generalizing s with
  | zero => rw [Nat.zero_add, runFor]
  | succ m ih => rw [Nat.succ_add, runFor, runFor, ih]

/-- Once a run has stopped, allowing more steps changes nothing. -/
theorem runFor_of_le {m n : Nat} {s : State} (hmn : m ≤ n) (h : (runFor m s).status ≠ .running) :
    runFor n s = runFor m s := by
  obtain ⟨k, rfl⟩ := Nat.exists_eq_add_of_le hmn
  rw [runFor_add, runFor_stopped h]

theorem RunReturns.unique {s t u : State} (ht : RunReturns s t) (hu : RunReturns s u) : t = u := by
  obtain ⟨-, m, rfl, hm⟩ := ht
  obtain ⟨-, n, rfl, hn⟩ := hu
  rcases Nat.le_total m n with hmn | hmn
  · exact (runFor_of_le hmn hm).symm
  · exact runFor_of_le hmn hn

/-- A run that returns does not go on for ever, and one that does not returns. -/
theorem runNeverReturns_iff {s : State} (hs : s.status = .idle) : RunNeverReturns s ↔ ¬∃ t, RunReturns s t := by
  constructor
  · rintro ⟨-, hnever⟩ ⟨t, -, n, rfl, hn⟩
    exact hn (hnever n)
  · intro hno
    exact ⟨hs, fun n => not_not.mp fun hn => hno ⟨_, hs, n, rfl, hn⟩⟩

theorem status_ne_running_iff {st : Status} : st ≠ .running ↔ st = .idle ∨ st = .faulted := by
  cases st <;> decide

theorem hostOp_run_idle {s : State} (hs : s.status = .idle) : hostOp .run s = (s.setStatus .running, .done) :=
  if_pos (admitted_run.mpr hs)

end Sys2Proof.Machine

/-! ### The obligations -/

namespace Sys2Proof.Proofs

open Sys2Proof.Machine Sys2Proof.Claims

/-- Settles O29: the fetch agrees with the pseudocode phase by phase, and each execute phase instruction by instruction. -/
theorem stepRefinesThePseudocode : Obligations.StepRefinesThePseudocode :=
  fun _ => ⟨fun hr => (exists_step_iff.mpr hr).imp fun _ h => ⟨h, numbers_step h⟩,
    fun hs t h => hs (exists_step_iff.mp ⟨t, h⟩)⟩

/-- Settles O18: each phase is one case of the fetch, and the step runs what the fetch answers. -/
theorem fetchPhases : Obligations.FetchPhases := by
  intro s hr
  have hsize := memSize_eq
  have hpc : s.pc.toNat = (s.x 0).toNat := rfl
  refine ⟨fun hp => ?_, fun hp m hb => ?_, fun hp hb => ?_, fun hp hb => ?_⟩
  · exact ⟨_, step_fetch_fault hr (fetch_outside hp), faultTaken_takeFault s _⟩
  · have hf : fetch (s.setMem m) = .ok .halt := fetch_halt hp hb
    exact step_halt (atInstr_iff_fetch.mpr ⟨hr, hf⟩)
  · have hf : fetch s = .error ⟨.mem, memSize⟩ := fetch_past_last_slot (by omega) (by omega) fun _ => hb
    exact ⟨_, step_fetch_fault hr hf, faultTaken_takeFault s _⟩
  · have hi := atInstr_iff_fetch.mpr ⟨hr, fetch_three (by omega) hb⟩
    obtain ⟨u, hu⟩ := exec_next _ s
    exact ⟨_, decode_ne hb _ _ _, hi, u, hu, step_of_exec hi hu⟩

/-- Settles O19: the execute phase ended the run, took a fault, or left the block RUNNING for the increment. -/
theorem pcIncrement : Obligations.PcIncrement := by
  intro i s t hi hx
  have hstep := step_of_exec hi hx
  rcases (execEffect_of_exec hx).status_cases with ⟨rfl, rfl⟩ | ⟨e, rfl⟩ | hst
  · exact ⟨fun _ => ⟨hstep, rfl⟩, fun hne => absurd rfl hne⟩
  · rw [State.finishStep_takeFault] at hstep
    exact ⟨fun _ => ⟨hstep, rfl⟩, fun _ hne => absurd rfl hne⟩
  · have hrun : t.status = .running := hst.trans hi.1
    rw [State.finishStep_running hrun] at hstep
    refine ⟨?_, fun hne _ => ⟨_, hstep, pcPlus3_incrementPc t, fun hpc => ?_⟩⟩
    · rintro (rfl | hf)
      · cases (execHalt_eq s).symm.trans hx
        cases hrun
      · cases hrun.symm.trans hf
    · have hp : (s.x 0).toNat ≤ 17 := pc_le_of_fetch_ok (atInstr_iff_fetch.mp hi).2 hne
      rw [(pcPlus3_incrementPc t).1, hpc]
      omega

/-- Settles O21: register 0 is not written before the increment, so an instruction that reads it reads the PC. -/
theorem pcReadsAsOwnAddress : Obligations.PcReadsAsOwnAddress := by
  have hzero : (0 : Byte).toNat = (0 : RegIdx).val := rfl
  have hsize := memSize_eq
  intro s
  refine ⟨fun a hs ha => ?_, fun d i hd h0 hs => ?_, fun d i hd h0 hs => ?_, fun n j hn hs => ?_, fun n j hn hs => ?_⟩
  · exact ⟨_, step_store_ok hs hzero (by omega), s.afterStore_wordAt _ _⟩
  · refine ⟨_, step_add_ok hs hd hzero, ?_⟩
    rw [State.incrementPc_x _ h0, State.x_setX_same, BitVec.toNat_add]
  · refine ⟨_, step_sub_ok hs hd hzero, ?_⟩
    rw [State.incrementPc_x _ h0, State.x_setX_same, toNat_sub_eq_emod]
  · refine ⟨_, step_add_ok hs hzero hn, ?_⟩
    rw [(pcPlus3_incrementPc _).1, State.x_setX_same, BitVec.toNat_add]
    omega
  · refine ⟨_, step_sub_ok hs hzero hn, ?_⟩
    rw [(pcPlus3_incrementPc _).1, State.x_setX_same]
    have := toNat_sub_eq_emod (s.x 0) (s.x j)
    omega

/-- Settles O24: RUNNING has a step, and the two other statuses name themselves. -/
theorem stepsExactlyWhileRunning : Obligations.StepsExactlyWhileRunning :=
  fun _ => ⟨exists_step_iff, step_idle, step_faulted⟩

/-- Settles O33: a stopped run stays where it is, so two counts of steps that stop it stop it in one state. -/
theorem runEndsInOneStateOrNever : Obligations.RunEndsInOneStateOrNever := by
  intro s hs
  have hnever := runNeverReturns_iff hs
  refine ⟨hostOp_run_idle hs, ?_, fun ⟨hret, hno⟩ => hnever.mp hno hret, fun t u ht hu => ht.unique hu, ?_⟩
  · rw [hnever]
    exact em _
  · rintro t ⟨-, n, -, hn⟩
    exact status_ne_running_iff.mp hn

/-- Settles O17: the fetch answers the instruction whose bytes lie at the PC, and the step finishes its execute phase. -/
theorem stepRunsTheDecodedInstruction : Obligations.StepRunsTheDecodedInstruction := by
  intro i s hi
  have ⟨_, hw, _⟩ := hi
  obtain ⟨u, hu⟩ := exec_next i s
  have hdecode := decode_encode hw []
  rw [List.append_nil] at hdecode
  refine ⟨hdecode, ?_⟩
  rw [step_of_exec hi hu, hu]
  rfl

end Sys2Proof.Proofs

/-! SUPPORT. The state a STORE leaves and the word a LOAD brings back, through the word that two cells hold
(spec/41_load_store.md). -/

namespace Sys2Proof.Machine

open Sys2Proof.Claims

/-! ### The frame of a register write -/

theorem sameButReg_setX (s : State) (i : RegIdx) (v : Word) : SameButReg s (s.setX i v) i :=
  ⟨fun _ hj => s.x_setX_ne v hj, fun _ => rfl, rfl, rfl⟩

theorem sameButReg_trans {s t u : State} {d : RegIdx} (hst : SameButReg s t d) (htu : SameButReg t u d) :
    SameButReg s u d := by
  obtain ⟨hx, hm, hs, hf⟩ := hst
  obtain ⟨hx', hm', hs', hf'⟩ := htu
  exact ⟨fun j hj => (hx' j hj).trans (hx j hj), fun a => (hm' a).trans (hm a), hs'.trans hs, hf'.trans hf⟩

/-! ### The LOAD of the word at `a` -/

/-- The value a two-byte read forms is the word that the two cells hold (spec/20_memory.md R34). -/
theorem joinBytes_read_eq_of_wordAt {s : State} {a : Nat} {v : Word} (h : wordAt s a = v.toNat) :
    joinBytes (s.mem.read (a + 1)) (s.mem.read a) = v :=
  BitVec.eq_of_toNat_eq ((joinBytes_toNat _ _).trans h)

theorem exists_wordAt_eq (s : State) (a : Nat) : ∃ v : Word, wordAt s a = v.toNat :=
  ⟨_, (joinBytes_toNat _ _).symm⟩

theorem exec_load_of_wordAt {r a : Byte} {i : RegIdx} {s : State} {v : Word} (hr : r.toNat = i.val)
    (ha : a.toNat + 1 < memSize) (hv : wordAt s a.toNat = v.toNat) : exec (.load r a) s = .next (s.setX i v) := by
  rw [exec_load_ok hr ha, joinBytes_read_eq_of_wordAt hv]

theorem step_load_of_wordAt {r a : Byte} {i : RegIdx} {s : State} {v : Word} (hs : AtInstr s (.load r a))
    (hr : r.toNat = i.val) (ha : a.toNat + 1 < memSize) (hv : wordAt s a.toNat = v.toNat) :
    step s = .next (s.setX i v).incrementPc := by
  rw [step_of_exec hs (exec_load_of_wordAt hr ha hv), State.finishStep_running]
  exact hs.1

/-- A LOAD of register 0 jumps: the increment follows the loaded word (R67). -/
theorem setX_zero_incrementPc_x_zero (s : State) (v : Word) :
    ((s.setX 0 v).incrementPc.x 0).toNat = (v.toNat + 3) % 65536 := by
  rw [(pcPlus3_incrementPc _).1, State.x_setX_same]

/-! ### The STORE of a word at `a` -/

/-- `s` after the execute phase of a STORE of `v` to `a` (R68). -/
def State.storeWord (s : State) (a : Nat) (v : Word) : State :=
  s.setMem ((s.mem.write a (lowByte v)).write (a + 1) (highByte v))

theorem exec_store_eq_storeWord {r a : Byte} {i : RegIdx} {s : State} (hr : r.toNat = i.val)
    (ha : a.toNat + 1 < memSize) : exec (.store r a) s = .next (s.storeWord a.toNat (s.x i)) :=
  exec_store_ok hr ha

theorem pcPlus3_storeWord_afterStore (s : State) (a : Nat) (v : Word) : PcPlus3 (s.storeWord a v) (s.afterStore a v) :=
  pcPlus3_incrementPc _

theorem State.storeWord_read_low (s : State) (a : Nat) (v : Word) : (s.storeWord a v).mem.read a = lowByte v :=
  s.mem.read_write_pair_low a v

theorem State.storeWord_read_high (s : State) (a : Nat) (v : Word) : (s.storeWord a v).mem.read (a + 1) = highByte v :=
  s.mem.read_write_pair_high a v

theorem State.storeWord_wordAt (s : State) (a : Nat) (v : Word) : wordAt (s.storeWord a v) a = v.toNat :=
  s.afterStore_wordAt a v

theorem sameButCells_storeWord (s : State) (a : Nat) (v : Word) : SameButCells s (s.storeWord a v) a :=
  ⟨fun _ => rfl, fun _ h h' => s.mem.read_write_pair_ne v h h', rfl, rfl⟩

/-- Bytes outside the two stored cells are still there after the step of the STORE. -/
theorem bytesAt_afterStore {s : State} {p : Nat} {bs : List Byte} {a : Nat} (v : Word) (h : BytesAt s p bs)
    (hne : ∀ k, k < bs.length → p + k ≠ a ∧ p + k ≠ a + 1) : BytesAt (s.afterStore a v) p bs := by
  obtain ⟨hlen, hread⟩ := h
  refine ⟨hlen, fun k hk => ?_⟩
  obtain ⟨h0, h1⟩ := hne k hk
  exact (s.mem.read_write_pair_ne v h0 h1).trans (hread k hk)

/-- The instruction that follows a STORE in sequence is still that instruction where the STORE spares its bytes (R69). -/
theorem atInstr_afterStore {s : State} {r a : Byte} {j : Instr} (v : Word) (hs : AtInstr s (.store r a))
    (hw : j.wellFormed = true) (hj : BytesAt s ((s.x 0).toNat + 3) (encode j))
    (hne : ∀ k, k < (encode j).length → (s.x 0).toNat + 3 + k ≠ a.toNat ∧ (s.x 0).toNat + 3 + k ≠ a.toNat + 1) :
    AtInstr (s.afterStore a.toNat v) j := by
  have hp : s.pc.toNat ≤ 17 := pc_le_of_fetch_ok (atInstr_iff_fetch.mp hs).2 nofun
  have hpc : ((s.afterStore a.toNat v).x 0).toNat = (s.x 0).toNat + 3 := State.afterStore_pc hp a.toNat v
  refine ⟨hs.1, hw, ?_⟩
  rw [hpc]
  exact bytesAt_afterStore v hj hne

end Sys2Proof.Machine

/-! ### The obligations -/

namespace Sys2Proof.Proofs

open Sys2Proof.Machine Sys2Proof.Claims

/-- Settles O9: one clause per outcome of the execute phase, and the step of LOAD r0 as its register write and the increment. -/
theorem loadEffect : Obligations.LoadEffect := by
  intro r a s
  have hsize := memSize_eq
  obtain ⟨v, hv⟩ := exists_wordAt_eq s a.toNat
  refine ⟨decode_encode (i := .load r a) rfl [], fun i hr ha => ?_, fun ha => ?_, fun ha => ?_, fun ha hr => ?_,
    fun hs ha => ?_⟩
  · exact ⟨_, exec_load_of_wordAt hr (by omega) hv, by rw [State.x_setX_same, hv], sameButReg_setX s i v⟩
  · exact ⟨_, exec_load_memory_fault (Memory.read2_error_low ha), faultTaken_takeFault s _⟩
  · exact ⟨_, exec_load_memory_fault (Memory.read2_error_high (by omega)), faultTaken_takeFault s _⟩
  · exact ⟨_, exec_load_register_fault (by omega) hr, faultTaken_takeFault s _⟩
  · refine ⟨_, step_load_of_wordAt hs (i := 0) rfl (by omega) hv, ?_, ?_⟩
    · rw [setX_zero_incrementPc_x_zero, hv]
    · exact sameButReg_trans (sameButReg_setX s 0 v) (pcPlus3_incrementPc _).2

/-- Settles O10: one clause per outcome of the execute phase, and the step as the two stored cells and the increment. -/
theorem storeEffect : Obligations.StoreEffect := by
  intro r a s
  have hsize := memSize_eq
  refine ⟨decode_encode (i := .store r a) rfl [], fun i hr ha => ?_, fun hr => ?_, fun hr ha => ?_, fun hr ha => ?_,
    fun i hr hs ha => ?_⟩
  · refine ⟨_, exec_store_eq_storeWord hr (by omega), ?_, ?_, sameButCells_storeWord s _ _⟩
    · rw [State.storeWord_read_low, lowByte_toNat_eq_and]
    · rw [State.storeWord_read_high, highByte_toNat_eq_shiftRight]
  · exact ⟨_, exec_store_register_fault hr, faultTaken_takeFault s _⟩
  · exact ⟨_, exec_store_memory_fault (i := ⟨r.toNat, hr⟩) rfl (Memory.write2_error_low _ ha), faultTaken_takeFault s _⟩
  · exact ⟨_, exec_store_memory_fault (i := ⟨r.toNat, hr⟩) rfl (Memory.write2_error_high _ (by omega)),
      faultTaken_takeFault s _⟩
  · exact ⟨_, _, step_store_ok hs hr (by omega), pcPlus3_storeWord_afterStore s _ _, sameButCells_storeWord s _ _,
      s.storeWord_wordAt _ _⟩

/-- Settles O16: the STORE leaves its value as the word at the address, and the LOAD's result depends on that word only. -/
theorem storeThenLoadRoundTrip : Obligations.StoreThenLoadRoundTrip := by
  intro r r' a i i' s hr hr' ha
  have ha : a.toNat + 1 < memSize := Nat.add_lt_add_right (Nat.lt_succ_of_le ha) 1
  constructor
  · refine ⟨_, exec_store_eq_storeWord hr ha, fun t' ht => ?_⟩
    exact ⟨_, exec_load_of_wordAt hr' ha (ht.trans (s.storeWord_wordAt _ _)), t'.x_setX_same _ _⟩
  · intro hs
    refine ⟨_, step_store_ok hs hr ha, fun t' ht hl => ?_, fun hb hne => atInstr_afterStore _ hs rfl hb hne⟩
    refine ⟨_, step_load_of_wordAt hl hr' ha (ht.trans (s.afterStore_wordAt _ _)), fun h0 => ?_, ?_⟩
    · rw [State.incrementPc_x _ h0, State.x_setX_same]
    · rintro rfl
      exact setX_zero_incrementPc_x_zero t' _

end Sys2Proof.Proofs

/-! SUPPORT. What ADD and SUB share: the fault of the first operand that names no register, and the write of register 0 as a
relative jump (spec/42_arithmetic.md). -/

namespace Sys2Proof.Machine

open Sys2Proof.Claims

theorem complete_aluInto_faultTaken_first {d : Byte} (f : Word → Word → Word) (n : Byte) (s : State)
    (hd : numRegs ≤ d.toNat) : ∃ t, complete s (aluInto f d n s) = .next t ∧ FaultTaken s t 2 .reg d.toNat :=
  ⟨_, by rw [aluInto_error_first f s hd, complete_error], faultTaken_takeFault s _⟩

theorem complete_aluInto_faultTaken_second {d n : Byte} (f : Word → Word → Word) (s : State) (hd : d.toNat < numRegs)
    (hn : numRegs ≤ n.toNat) : ∃ t, complete s (aluInto f d n s) = .next t ∧ FaultTaken s t 2 .reg n.toNat :=
  ⟨_, by rw [aluInto_error_second (i := ⟨d.toNat, hd⟩) f s rfl hn, complete_error], faultTaken_takeFault s _⟩

theorem sameButReg_setX_zero_incrementPc (s : State) (v : Word) : SameButReg s (s.setX 0 v).incrementPc 0 :=
  sameButReg_trans (sameButReg_setX s 0 v) (pcPlus3_incrementPc _).2

/-- A difference below 0 comes out plus 65536 (R72). -/
theorem toNat_sub_add_of_lt {a b : Word} (h : a.toNat < b.toNat) : (a - b).toNat + b.toNat = a.toNat + 65536 := by
  have := b.isLt
  rw [BitVec.toNat_sub]
  omega

/-- SUB undoes ADD while the second source still holds what was added (R72). -/
theorem State.x_setX_add_sub_cancel (s : State) {i j : RegIdx} (h : i ≠ j) :
    (s.setX i (s.x i + s.x j)).x i - (s.setX i (s.x i + s.x j)).x j = s.x i := by
  rw [State.x_setX_same, State.x_setX_ne s _ h.symm, BitVec.add_sub_cancel]

end Sys2Proof.Machine

/-! ### The obligations -/

namespace Sys2Proof.Proofs

open Sys2Proof.Machine Sys2Proof.Claims

/-- Settles O11: one clause per outcome of the execute phase, and the step of ADD r0 as its register write and the increment. -/
theorem addEffect : Obligations.AddEffect := by
  intro d n s
  refine ⟨decode_encode (i := .add d n) rfl [], fun i j hd hn => ?_, complete_aluInto_faultTaken_first aluAdd n s,
    complete_aluInto_faultTaken_second aluAdd s, fun j hn hs => ?_⟩
  · exact ⟨_, exec_add_ok s hd hn, by rw [State.x_setX_same, BitVec.toNat_add], sameButReg_setX s i _⟩
  · refine ⟨_, step_add_ok hs (i := 0) rfl hn, ?_, sameButReg_setX_zero_incrementPc s _⟩
    rw [setX_zero_incrementPc_x_zero, BitVec.toNat_add, Nat.mod_add_mod]

/-- Settles O12: as ADD, with the difference of words as the remainder of the exact difference. -/
theorem subEffect : Obligations.SubEffect := by
  intro d n s
  refine ⟨decode_encode (i := .sub d n) rfl [], fun i j hd hn => ?_, complete_aluInto_faultTaken_first aluSub n s,
    complete_aluInto_faultTaken_second aluSub s, fun j hn hs => ?_⟩
  · exact ⟨_, exec_sub_ok s hd hn, by rw [State.x_setX_same, toNat_sub_eq_emod], sameButReg_setX s i _⟩
  · refine ⟨_, step_sub_ok hs (i := 0) rfl hn, ?_, sameButReg_setX_zero_incrementPc s _⟩
    rw [setX_zero_incrementPc_x_zero, Int.natCast_emod, Int.natCast_add, toNat_sub_eq_emod]
    exact Int.emod_add_emod _ _ _

/-- Settles O13: both operations write one register, so each law is the law of addition or subtraction of words. -/
theorem aluLaws : Obligations.AluLaws := by
  intro d n i j s hd hn
  refine ⟨_, _, _, _, exec_add_ok s hd hn, exec_add_ok s hn hd, exec_sub_ok s hd hn, exec_sub_ok _ hd hn, rfl, rfl, rfl,
    rfl, ?sum, fun hle => ?difference, fun hlt => ?wrapped, ?commutes, fun hij => ?undone⟩
  case sum => rw [State.x_setX_same, BitVec.toNat_add]
  case difference => rw [State.x_setX_same, BitVec.toNat_sub_of_le hle]
  case wrapped => rw [State.x_setX_same, toNat_sub_add_of_lt hlt]
  case commutes => rw [State.x_setX_same, State.x_setX_same, BitVec.add_comm]
  case undone => rw [State.x_setX_same, s.x_setX_add_sub_cancel hij]

end Sys2Proof.Proofs

/-! SUPPORT. HALT and the unrecognized opcodes at the PC, and where the PC can go in one step (spec/43_control.md). -/

namespace Sys2Proof.Machine

open Sys2Proof.Claims

/-! ### HALT at the PC -/

/-- HALT is at the PC as soon as its one byte is: no other cell is looked at (R74). -/
theorem atInstr_halt_iff {s : State} :
    AtInstr s .halt ↔ s.status = .running ∧ s.pc.toNat < memSize ∧ s.mem.read s.pc.toNat = opHalt :=
  and_congr_right fun _ => (and_iff_right rfl).trans bytesAt_one

/-- RUN on the state a HALT left fetches the same HALT (R74; spec/60_exceptions.md R93). -/
theorem step_run_after_halt {s : State} (hi : AtInstr s .halt) :
    step (hostOp .run (s.setStatus .idle)).1 = .next (s.setStatus .idle) := by
  obtain ⟨-, hcell⟩ := atInstr_halt_iff.mp hi
  rw [hostOp_run_idle rfl]
  exact step_halt (atInstr_halt_iff.mpr ⟨rfl, hcell⟩)

/-! ### An unrecognized opcode at the PC -/

theorem atInstr_unrecognized {s : State} {op : Byte} (hr : s.status = .running)
    (hw : ∀ arg1 arg2, (Instr.unrecognized op arg1 arg2).wellFormed = true) (hp : s.pc.toNat + 2 < memSize)
    (hb : s.mem.read s.pc.toNat = op) :
    AtInstr s (.unrecognized op (s.mem.read (s.pc.toNat + 1)) (s.mem.read (s.pc.toNat + 2))) :=
  ⟨hr, hw _ _, bytesAt_three.mpr ⟨hp, hb, rfl, rfl⟩⟩

theorem step_unrecognized {s : State} {op arg1 arg2 : Byte} (hi : AtInstr s (.unrecognized op arg1 arg2)) :
    step s = .next s.incrementPc := by
  rw [step_of_exec hi (execUnrecognized_eq op arg1 arg2 s), State.finishStep_running hi.1]

theorem incrementPc_pc_toNat {s : State} (hp : s.pc.toNat ≤ 17) : s.incrementPc.pc.toNat = s.pc.toNat + 3 :=
  (pcPlus3_incrementPc s).1.trans (Nat.mod_eq_of_lt (by omega : s.pc.toNat + 3 < 65536))

/-! ### How a step leaves the status and the PC -/

/-- A step's state is the only one, so what holds of some state the step answers holds of it. -/
theorem of_exists_step {s t : State} {P : State → Prop} (h : step s = .next t) (hP : ∃ u, step s = .next u ∧ P u) :
    P t := by
  obtain ⟨u, hu, hPu⟩ := hP
  cases h.symm.trans hu
  exact hPu

theorem halt_of_step_idle {s t : State} (h : step s = .next t) (ht : t.status = .idle) :
    AtInstr s .halt ∧ t = s.setStatus .idle := by
  obtain ⟨e, -, rfl⟩ | ⟨i, u, hi, hu, rfl⟩ := step_effect h
  · cases ht
  · rw [State.finishStep_status] at ht
    rcases hu.status_cases with ⟨rfl, rfl⟩ | ⟨e, rfl⟩ | hst
    · exact ⟨hi, State.finishStep_ended nofun⟩
    · cases ht
    · cases hi.1.symm.trans (hst.symm.trans ht)

/-- A step that leaves the block RUNNING completed an instruction other than HALT and incremented the PC. -/
theorem incremented_of_step_running {s t : State} (h : step s = .next t) (ht : t.status = .running) :
    ∃ i u, AtInstr s i ∧ i ≠ .halt ∧ exec i s = .next u ∧ t = u.incrementPc := by
  obtain ⟨hr, ⟨e, -, rfl⟩ | ⟨i, u, hf, hx, rfl⟩⟩ := step_next_cases h
  · cases ht
  · rw [State.finishStep_status] at ht
    refine ⟨i, u, atInstr_iff_fetch.mpr ⟨hr, hf⟩, ?_, hx, State.finishStep_running ht⟩
    rintro rfl
    cases (execHalt_eq s).symm.trans hx
    cases ht

/-- The PC goes on in sequence unless the instruction names register 0 as its destination (R76). -/
theorem pc_of_step_running {s t : State} (h : step s = .next t) (ht : t.status = .running) :
    t.pc.toNat = s.pc.toNat + 3 ∨ ∃ i, AtInstr s i ∧ destination i = some 0 := by
  obtain ⟨i, u, hi, hne, hx, rfl⟩ := incremented_of_step_running h ht
  by_cases hd : destination i = some 0
  · exact .inr ⟨i, hi, hd⟩
  · have hpc : u.pc = s.pc := (execEffect_of_exec hx).x_eq fun d hd' h0 => by
      obtain rfl : d = 0 := BitVec.eq_of_toNat_eq h0
      exact hd hd'
    have hp : s.pc.toNat ≤ 17 := pc_le_of_fetch_ok (atInstr_iff_fetch.mp hi).2 hne
    left
    rw [incrementPc_pc_toNat (by rwa [hpc]), hpc]

/-- A LOAD after whose step the block is RUNNING has read a word within memory. -/
theorem load_address_of_step_running {r a : Byte} {s t : State} (hs : AtInstr s (.load r a)) (h : step s = .next t)
    (ht : t.status = .running) : a.toNat + 1 < memSize := by
  rcases read2_cases s.mem a with ⟨ha, -⟩ | ⟨e, -, he⟩
  · exact ha
  · cases h.symm.trans (step_of_exec hs (exec_load_memory_fault he))
    cases ht

end Sys2Proof.Machine

/-! ### The obligations -/

namespace Sys2Proof.Proofs

open Sys2Proof.Machine Sys2Proof.Claims

/-- Settles O14: three bytes never encode HALT, and a HALT at the PC changes the status alone, which RUN sets back. -/
theorem haltEffect : Obligations.HaltEffect := by
  intro s
  refine ⟨decode_halt [], fun b0 b1 b2 rest h0 hdec => ?_, ?_, fun hr hp hb => ?_⟩
  · obtain ⟨-, hbytes, -⟩ := encodeInvertsDecode _ _ _ hdec
    exact h0 (List.cons.inj hbytes).1.symm
  · exact ⟨_, execHalt_eq s, rfl, fun _ => rfl, fun _ => rfl, rfl⟩
  · have hi : AtInstr s .halt := atInstr_halt_iff.mpr ⟨hr, hp, hb⟩
    exact ⟨_, step_halt hi, rfl, fun _ => rfl, fun _ => rfl, rfl, rfl, step_run_after_halt hi⟩

/-- Settles O15: the execute phase is empty, so the step is the increment, and past 17 the fetch faults. -/
theorem unrecognizedIsNoOperation : Obligations.UnrecognizedIsNoOperation := by
  intro op arg1 arg2 s h1 h2 h3 h4 h0
  have hw (b b' : Byte) : (Instr.unrecognized op b b').wellFormed = true :=
    wellFormed_unrecognized.mpr ⟨h1, h2, h3, h4, h0⟩
  refine ⟨decode_encode (hw arg1 arg2) [], execUnrecognized_eq op arg1 arg2 s, fun hr hp hb => ?_,
    fun hr hp hb => ?_⟩
  · have hi := atInstr_unrecognized hr hw (Nat.add_lt_add_right (Nat.lt_succ_of_le hp) 2) hb
    refine ⟨_, step_unrecognized hi, pcPlus3_incrementPc s, fun h17 => ?_⟩
    have hpc : (s.incrementPc.x 0).toNat = 20 := (incrementPc_pc_toNat hp).trans (congrArg (· + 3) h17)
    have hfault := (fetchPhases s.incrementPc hr).1 hpc.ge
    rwa [hpc] at hfault
  · obtain ⟨-, -, hoperands, -⟩ := fetchPhases s hr
    exact hoperands hp (hb ▸ h0)

/-- Settles O20: without a write of register 0 the PC is incremented; with one, the step is that of the jump. -/
theorem controlTransfers : Obligations.ControlTransfers := by
  intro s t _ h ht
  obtain ⟨-, -, -, hadd, hsub⟩ := pcReadsAsOwnAddress s
  refine ⟨?_, fun a hs => ?_, fun n j hn hs => of_exists_step h (hadd n j hn hs),
    fun n j hn hs => of_exists_step h (hsub n j hn hs), (fetchPhases t ht).1⟩
  · refine (pc_of_step_running h ht).imp_right fun hd => ?_
    obtain ⟨n, hs | hs | hs⟩ := exists_destination_iff.mp hd
    · exact .inl ⟨n, hs⟩
    · exact .inr (.inl ⟨n, hs⟩)
    · exact .inr (.inr ⟨n, hs⟩)
  · obtain ⟨-, -, -, -, -, hload⟩ := loadEffect 0 a s
    have hsize := memSize_eq
    have ha := load_address_of_step_running hs h ht
    exact (of_exists_step h (hload hs (by omega))).1

/-- Settles O25: of all steps only that of HALT ends in IDLE, and HALT's one byte is at the PC. -/
theorem onlyHaltStops : Obligations.OnlyHaltStops := by
  intro s t h ht
  obtain ⟨hi, rfl⟩ := halt_of_step_idle h ht
  obtain ⟨-, hp, hb⟩ := atInstr_halt_iff.mp hi
  exact ⟨hp, hb, rfl⟩

/-- Settles O42: the saved word is the STORE's own address, at most 17, so the LOAD's jump past it does not wrap. -/
theorem savedPcReturnsAfterTheStore : Obligations.SavedPcReturnsAfterTheStore := by
  intro a s ha hs
  have ha : a.toNat + 1 < memSize := Nat.add_lt_add_right (Nat.lt_succ_of_le ha) 1
  have hp : (s.x 0).toNat ≤ 17 := pc_le_of_fetch_ok (atInstr_iff_fetch.mp hs).2 nofun
  have hsaved := s.afterStore_wordAt a.toNat (s.x 0)
  refine ⟨_, step_store_ok hs (i := 0) rfl ha, hsaved, fun u hu hword => ?_⟩
  refine ⟨_, step_load_of_wordAt hu (i := 0) rfl ha (hword.trans hsaved), ?_⟩
  rw [setX_zero_incrementPc_x_zero]
  exact Nat.mod_eq_of_lt (by omega)

end Sys2Proof.Proofs

/-! SUPPORT. The faults of a step against the ordered checks of the spec, by way of the pseudocode on numbers; how a step ends
FAULTED, and what the host can do there (spec/60_exceptions.md). -/

namespace Sys2Proof.Machine

open Sys2Proof.Claims

/-! ### The checks of R84, one index at a time -/

/-- The two memory checks from `a` on, before the checks `rest`. -/
def cellsCheck (a : Nat) (rest : Option (Nat × Space × Nat)) : Option (Nat × Space × Nat) :=
  if 20 ≤ a then some (1, .mem, a) else if 20 ≤ a + 1 then some (1, .mem, a + 1) else rest

/-- The check of a register operand, before the checks `rest`. -/
def registerCheck (r : Nat) (rest : Option (Nat × Space × Nat)) : Option (Nat × Space × Nat) :=
  if 3 ≤ r then some (2, .reg, r) else rest

/-- `a + 1` alone is outside memory only for `a = 19` (R82). -/
theorem cellsCheck_eq (a : Nat) (rest : Option (Nat × Space × Nat)) :
    cellsCheck a rest = if 20 ≤ a then some (1, .mem, a) else if a = 19 then some (1, .mem, 20) else rest := by
  unfold cellsCheck
  by_cases ha : 20 ≤ a
  · rw [if_pos ha, if_pos ha]
  by_cases h19 : a = 19
  · subst h19; rfl
  · rw [if_neg ha, if_neg ha, if_neg (by omega), if_neg h19]

/-- The operand fetch of an opcode within memory fails on index 20, whichever of its two checks fails (R82). -/
theorem cellsCheck_operands {p : Nat} (hp : ¬20 ≤ p) (rest : Option (Nat × Space × Nat)) :
    cellsCheck (p + 1) rest = if 18 ≤ p then some (1, .mem, 20) else rest := by
  rw [cellsCheck_eq]
  by_cases h19 : 20 ≤ p + 1
  · rw [if_pos h19, if_pos (by omega), (by omega : p + 1 = 20)]
  by_cases h18 : p = 18
  · subst h18; rfl
  · rw [if_neg h19, if_neg (by omega), if_neg (by omega)]

/-- The list of R84 as a chain of the checks above, in the order of the pseudocode. -/
theorem firstFailing_eq_checks (p b0 b1 b2 : Nat) :
    firstFailing p b0 b1 b2 =
      if 20 ≤ p then some (1, .mem, p)
      else if b0 = 0xFF then none
      else cellsCheck (p + 1)
        (if b0 = 0x01 then cellsCheck b2 (registerCheck b1 none)
        else if b0 = 0x02 then registerCheck b1 (cellsCheck b2 none)
        else if b0 = 0x03 then registerCheck b1 (registerCheck b2 none)
        else if b0 = 0x04 then registerCheck b1 (registerCheck b2 none)
        else none) := by
  unfold firstFailing
  by_cases hp : 20 ≤ p
  · rw [if_pos hp, if_pos hp]
  · simp only [if_neg hp, cellsCheck_operands hp, cellsCheck_eq, registerCheck, ite_or]

/-! ### The pseudocode raises the first failing check -/

/-- `m` is `n` with exactly this check raised; where there is none, `m` is not FAULTED and has the record of `n`. -/
def RaisesExactly (n m : Numbers) : Option (Nat × Space × Nat) → Prop
  | some (code, space, index) => m = raiseN n code space index
  | none => m.status ≠ .faulted ∧ m.fault = n.fault

/-- A branch of the pseudocode beside the same branch of the checks. -/
theorem RaisesExactly.ite {n m m' : Numbers} {k k' : Option (Nat × Space × Nat)} {c : Prop} [Decidable c]
    (h : RaisesExactly n m k) (h' : RaisesExactly n m' k') :
    RaisesExactly n (if c then m else m') (if c then k else k') := by
  by_cases hc : c
  · rwa [if_pos hc, if_pos hc]
  · rwa [if_neg hc, if_neg hc]

theorem RaisesExactly.cells {n m : Numbers} {k : Option (Nat × Space × Nat)} (a : Nat) (h : RaisesExactly n m k) :
    RaisesExactly n (if 20 ≤ a then raiseN n 1 .mem a else if 20 ≤ a + 1 then raiseN n 1 .mem (a + 1) else m)
      (cellsCheck a k) :=
  .ite rfl (.ite rfl h)

theorem RaisesExactly.register {n m : Numbers} {k : Option (Nat × Space × Nat)} (r : Nat) (h : RaisesExactly n m k) :
    RaisesExactly n (if 3 ≤ r then raiseN n 2 .reg r else m) (registerCheck r k) :=
  .ite rfl h

section
variable {n : Numbers} (hn : n.status ≠ .faulted)
include hn

theorem loadN_raisesExactly (r a : Nat) : RaisesExactly n (loadN n r a) (cellsCheck a (registerCheck r none)) :=
  .cells a (.register r ⟨hn, rfl⟩)

theorem storeN_raisesExactly (r a : Nat) : RaisesExactly n (storeN n r a) (registerCheck r (cellsCheck a none)) :=
  .register r (.cells a ⟨hn, rfl⟩)

theorem aluN_raisesExactly (g : Nat → Nat → Nat) (d s : Nat) :
    RaisesExactly n (aluN g n d s) (registerCheck d (registerCheck s none)) :=
  .register d (.register s ⟨hn, rfl⟩)

/-- The pseudocode and the list of R84 branch alike, down to the checks of one instruction. -/
theorem stepN_raisesExactly :
    RaisesExactly n (stepN n) (firstFailing (n.x 0) (n.mem (n.x 0)) (n.mem (n.x 0 + 1)) (n.mem (n.x 0 + 2))) := by
  rw [firstFailing_eq_checks]
  refine .ite rfl (.ite ⟨nofun, rfl⟩ (.cells _ (.ite ?load (.ite ?store (.ite ?add (.ite ?sub ?other))))))
  case load => exact loadN_raisesExactly hn _ _
  case store => exact storeN_raisesExactly hn _ _
  case add => rw [addN_eq_aluN]; exact aluN_raisesExactly hn _ _ _
  case sub => rw [subN_eq_aluN]; exact aluN_raisesExactly hn _ _ _
  case other => exact ⟨hn, rfl⟩

end

/-! ### Back from numbers to the state -/

theorem fault_eq_of_numbers_fault_eq {s t : State} (h : (numbers t).fault = (numbers s).fault) : t.fault = s.fault := by
  refine Option.map_injective (fun f f' hf => ?_) h
  obtain ⟨code, space, index, fpc⟩ := f
  obtain ⟨code', space', index', fpc'⟩ := f'
  simp only [Prod.mk.injEq, BitVec.toNat_inj] at hf
  obtain ⟨rfl, rfl, rfl, rfl⟩ := hf
  rfl

theorem faultTaken_of_numbers_eq_raiseN {s t : State} {code : Nat} {space : Space} {index : Nat}
    (h : numbers t = raiseN (numbers s) code space index) : FaultTaken s t code space index := by
  have hstatus : t.status = .faulted := congrArg Numbers.status h
  have hfault : t.fault = some ⟨code, space, index, s.x 0⟩ :=
    fault_eq_of_numbers_fault_eq (s := { s with fault := some ⟨code, space, index, s.x 0⟩ })
      (congrArg Numbers.fault h :)
  refine ⟨hstatus, hfault, fun j => BitVec.eq_of_toNat_eq ?_, fun a => BitVec.eq_of_toNat_eq ?_⟩
  · rw [← numbers_x, ← numbers_x, h]
    rfl
  · rw [← numbers_mem, ← numbers_mem, h]
    rfl

/-- A step raises exactly the first failing check, on numbers. -/
theorem step_raisesExactly {s t : State} (h : step s = .next t) :
    RaisesExactly (numbers s) (numbers t) (firstFailingCheck s) := by
  have hn : (numbers s).status ≠ .faulted := by
    change s.status ≠ .faulted
    rw [exists_step_iff.mp ⟨t, h⟩]
    nofun
  rw [numbers_step h]
  exact stepN_raisesExactly hn

/-! ### A step that ends FAULTED, and the host after it -/

theorem exists_takeFault_of_step_faulted {s t : State} (h : step s = .next t) (ht : t.status = .faulted) :
    ∃ e, t = s.takeFault e := by
  obtain ⟨e, -, rfl⟩ | ⟨i, u, hi, hu, rfl⟩ := step_effect h
  · exact ⟨e, rfl⟩
  · rw [State.finishStep_status] at ht
    rcases hu.status_cases with ⟨-, rfl⟩ | ⟨e, rfl⟩ | hst
    · cases ht
    · exact ⟨e, State.finishStep_takeFault s e⟩
    · cases hi.1.symm.trans (hst.symm.trans ht)

theorem faultCode_eq_ite (space : Space) : faultCode space = if space = .mem then 1 else 2 := by
  cases space <;> rfl

theorem no_step_of_faulted {s : State} (hs : s.status = .faulted) (t : State) : step s ≠ .next t := by
  rw [step_faulted hs]
  nofun

theorem admitted_inspect {st : Status} : HostOp.inspect.admitted st = true ↔ st ≠ .running := by
  cases st <;> simp [HostOp.admitted]

/-- A refused operation changes nothing (spec/70_reset_and_hazards.md R96). -/
theorem hostOp_refused {op : HostOp} {s : State} (h : ¬op.admitted s.status = true) : hostOp op s = (s, .notAdmitted) :=
  if_neg h

end Sys2Proof.Machine

/-! ### The obligations -/

namespace Sys2Proof.Proofs

open Sys2Proof.Machine Sys2Proof.Claims

/-- Settles O22: such a step only took a fault, and FAULTED has no step. -/
theorem faultsArePrecise : Obligations.FaultsArePrecise := by
  intro s t h ht
  refine ⟨?_, no_step_of_faulted ht⟩
  obtain ⟨e, rfl⟩ := exists_takeFault_of_step_faulted h ht
  exact ⟨e.space, e.index, faultCode_eq_ite e.space ▸ faultTaken_takeFault s e⟩

/-- Settles O23: the step refines the pseudocode, whose branches are the checks in their order. -/
theorem firstFailingCheckIsRecorded : Obligations.FirstFailingCheckIsRecorded := by
  intro s hr
  obtain ⟨t, h⟩ := exists_step_iff.mpr hr
  have hraise := step_raisesExactly h
  constructor
  · intro code space index hcheck
    rw [hcheck] at hraise
    exact ⟨t, h, faultTaken_of_numbers_eq_raiseN hraise⟩
  · intro hcheck
    rw [hcheck] at hraise
    obtain ⟨hstatus, hfault⟩ := hraise
    exact ⟨t, h, hstatus, fault_eq_of_numbers_fault_eq hfault⟩

/-- Settles O36: FAULTED has no step, and of the host's operations it admits INSPECT and RESET only. -/
theorem onlyResetLeavesFaulted : Obligations.OnlyResetLeavesFaulted := by
  intro s hs
  have hidle : s.status ≠ .idle := by rw [hs]; nofun
  have hrunning : s.status ≠ .running := by rw [hs]; nofun
  refine ⟨no_step_of_faulted hs, ?run, fun image => ?loadImage, ?inspect, ?reset⟩
  case run => exact hostOp_refused (mt admitted_run.mp hidle)
  case loadImage => exact hostOp_refused (mt admitted_loadImage.mp hidle)
  case inspect => exact if_pos (admitted_inspect.mpr hrunning)
  case reset => exact if_pos (admitted_reset.mpr hrunning)

end Sys2Proof.Proofs

/-! SUPPORT. The host's replies, the cells of a loaded image, a word placed for the next fetch, and the run over zeroed memory
(spec/70_reset_and_hazards.md). -/

namespace Sys2Proof.Machine

open Sys2Proof.Claims

/-! ### The host's replies (R96 to R100) -/

/-- An admitted operation has another reply, so this refusal tells that the operation is outside its statuses. -/
theorem hostOp_notAdmitted_iff {op : HostOp} {s : State} :
    hostOp op s = (s, .notAdmitted) ↔ ¬op.admitted s.status = true := by
  refine ⟨fun h ha => ?_, hostOp_refused⟩
  replace h := congrArg Prod.snd ((if_pos ha).symm.trans h)
  cases op with
  | loadImage image =>
    by_cases hl : image.length = memSize
    · cases (congrArg Prod.snd (if_pos hl)).symm.trans h
    · cases (congrArg Prod.snd (if_neg hl)).symm.trans h
  | _ => cases h

theorem hostOp_loadImage_invalid {s : State} (hs : s.status = .idle) {image : List Byte} (hl : image.length ≠ memSize) :
    hostOp (.loadImage image) s = (s, .invalidImageSize) :=
  (if_pos (admitted_loadImage.mpr hs)).trans (if_neg hl)

theorem hostOp_inspect {s : State} (hs : s.status ≠ .running) : hostOp .inspect s = (s, .inspected s.view) :=
  if_pos (admitted_inspect.mpr hs)

@[simp] theorem State.view_cells_length (s : State) : s.view.cells.length = memSize := by
  simp [State.view]

theorem State.view_cells_getElem (s : State) {a : Nat} (h : a < s.view.cells.length) :
    s.view.cells[a] = s.mem.read a := by
  simp [State.view]

/-! ### Bytes written to consecutive cells -/

theorem Memory.read_writeBytes_getElem (m : Memory) (a : Nat) {bs : List Byte} {k : Nat} (h : k < bs.length) :
    (m.writeBytes a bs).read (a + k) = bs[k] := by
  have hin : a ≤ a + k ∧ a + k - a < bs.length := by omega
  rw [Memory.read_writeBytes, dif_pos hin]
  simp only [Nat.add_sub_cancel_left]

/-! ### A word placed for the next fetch -/

theorem length_encode_le_three (i : Instr) : (encode i).length ≤ 3 := by
  cases i with
  | halt => exact Nat.le_of_ble_eq_true rfl
  | _ => exact le_rfl

/-- The opcode alone says how many of the bytes the decoder was given it read (spec/30_encoding.md R49). -/
theorem take_eq_encode_of_decode {b0 : Byte} {bs rest : List Byte} {i : Instr} (h : decode (b0 :: bs) = .ok (i, rest)) :
    (b0 :: bs).take (instrLength b0) = encode i := by
  obtain ⟨rfl, hbs⟩ | ⟨c0, c1, c2, h0, rfl, hbs⟩ := decode_eq_ok h <;> cases hbs
  · rfl
  · rw [instrLength_ne h0, encode_decodeOperands]
    rfl

/-- The bytes of a table word that the fetch reads are the encoding of the instruction it stands for (log 4). -/
theorem fetchedTableBytes_eq_encode {nbits w : Nat} {i : Instr} (h : decodeTableWord nbits w = some i) :
    i.wellFormed = true ∧ fetchedTableBytes nbits w = encode i := by
  unfold decodeTableWord at h
  split at h
  · next j rest hdec =>
    cases h
    exact ⟨(Proofs.encodeInvertsDecode _ _ _ hdec).1, take_eq_encode_of_decode hdec⟩
  · cases h

theorem fetchSlot_add_le (s : State) {n : Nat} (hn : n ≤ memSize) : (fetchSlot s n).toNat + n ≤ memSize := by
  unfold fetchSlot
  split
  · assumption
  · exact (Nat.zero_add n).trans_le hn

@[simp] theorem State.placeAtPc_x_zero (s : State) (bs : List Byte) :
    (s.placeAtPc bs).x 0 = fetchSlot s bs.length :=
  s.x_setX_same 0 _

/-- Where the bytes fit at the PC, placing them changes no register (log 5). -/
theorem State.placeAtPc_x {s : State} {bs : List Byte} (h : s.pc.toNat + bs.length ≤ memSize) (j : RegIdx) :
    (s.placeAtPc bs).x j = s.x j := by
  have hslot : fetchSlot s bs.length = s.x 0 := if_pos h
  rw [placeAtPc, setStatus_x, setMem_x, hslot, setX_self]

theorem bytesAt_placeAtPc (s : State) {bs : List Byte} (h : bs.length ≤ memSize) :
    BytesAt (s.placeAtPc bs) ((s.placeAtPc bs).x 0).toNat bs := by
  rw [State.placeAtPc_x_zero]
  exact ⟨fetchSlot_add_le s h, fun _ hk => Memory.read_writeBytes_getElem s.mem _ hk⟩

theorem atInstr_withFetchWord (s : State) {nbits w : Nat} {i : Instr} (h : decodeTableWord nbits w = some i) :
    AtInstr (s.withFetchWord nbits w) i := by
  obtain ⟨hw, hbytes⟩ := fetchedTableBytes_eq_encode h
  rw [State.withFetchWord, hbytes]
  exact ⟨rfl, hw, bytesAt_placeAtPc s ((length_encode_le_three i).trans (by decide))⟩

/-! ### A run over zeroed memory (R95) -/

theorem runFor_succ_of_step {s t : State} {n : Nat} (h : step (runFor n s) = .next t) : runFor (n + 1) s = t := by
  rw [runFor_add, runFor, runFor, stepOrStay, h]

/-- The reset state RUNNING with its PC moved to `p`. -/
def runningOverZeros (p : Word) : State :=
  State.reset.startRun.setX 0 p

@[simp] theorem runningOverZeros_pc (p : Word) : (runningOverZeros p).pc = p :=
  State.pc_setX_zero _ p

theorem startRun_reset_eq : State.reset.startRun = runningOverZeros 0 :=
  (State.setX_self State.reset.startRun 0).symm

theorem atInstr_runningOverZeros {p : Word} (hp : p.toNat ≤ 17) :
    AtInstr (runningOverZeros p) (.unrecognized 0 0 0) := by
  rw [← runningOverZeros_pc p] at hp
  exact atInstr_unrecognized rfl (fun _ _ => rfl) (Nat.lt_succ_of_le (Nat.add_le_add_right hp 2)) rfl

theorem step_runningOverZeros {p : Word} (hp : p.toNat ≤ 17) :
    step (runningOverZeros p) = .next (runningOverZeros (p + 3)) := by
  rw [step_unrecognized (atInstr_runningOverZeros hp), State.incrementPc, runningOverZeros_pc, runningOverZeros,
    State.setX_setX]
  rfl

/-- At 18 the second operand byte would be cell 20 (spec/40_execution_cycle.md R62). -/
theorem step_runningOverZeros_eighteen :
    step (runningOverZeros 18) = .next ((runningOverZeros 18).takeFault ⟨.mem, memSize⟩) :=
  step_fetch_fault rfl (fetch_past_last_slot (by decide) (by decide) fun _ => by decide)

theorem toNat_ofNat_three_mul {k : Nat} (hk : k ≤ 6) : (BitVec.ofNat 16 (3 * k)).toNat = 3 * k :=
  Nat.mod_eq_of_lt (by omega)

/-- The first six steps of a RUN from reset: each adds 3 to the PC and changes nothing else. -/
theorem runFor_reset {k : Nat} (hk : k ≤ 6) :
    runFor k State.reset.startRun = runningOverZeros (BitVec.ofNat 16 (3 * k)) := by
  induction k with
  | zero => exact startRun_reset_eq
  | succ k ih =>
    have hp : (BitVec.ofNat 16 (3 * k)).toNat ≤ 17 := by rw [toNat_ofNat_three_mul] <;> omega
    have hnext : BitVec.ofNat 16 (3 * k) + 3 = BitVec.ofNat 16 (3 * (k + 1)) := (BitVec.ofNat_add _ _).symm
    apply runFor_succ_of_step
    rw [ih (by omega), step_runningOverZeros hp, hnext]

end Sys2Proof.Machine

/-! ### The obligations -/

namespace Sys2Proof.Proofs

open Sys2Proof.Machine Sys2Proof.Claims

/-- Settles O32: the image is written from cell 0 on, or its length is refused. -/
theorem loadImageReplacesMemory : Obligations.LoadImageReplacesMemory := by
  intro image s hs
  refine ⟨fun hl => ⟨_, hostOp_loadImage_done hs hl, fun a ha => ?_, fun _ => rfl, rfl, rfl⟩,
    fun hl => ⟨hostOp_loadImage_invalid hs hl, rfl⟩⟩
  rw [State.setMem_mem, ← Memory.read_writeBytes_getElem [] 0 (hl ▸ ha), Nat.zero_add]

/-- Settles O44: the placed bytes are the instruction's encoding at the PC, and three bytes fit there up to 17. -/
theorem placedWordIsFetched : Obligations.PlacedWordIsFetched := by
  intro s nbits w i h
  obtain ⟨hr, hf⟩ := atInstr_iff_fetch.mp (atInstr_withFetchWord s h)
  refine ⟨hr, hf, fun hp j => ?_⟩
  obtain ⟨-, hbytes⟩ := fetchedTableBytes_eq_encode h
  have hlen := length_encode_le_three i
  rw [State.withFetchWord, hbytes]
  exact State.placeAtPc_x (Nat.add_le_add hp hlen) j

/-- Settles O31: an operation is so refused exactly where it is not admitted, and the table is read off per operation. -/
theorem hostAdmission : Obligations.HostAdmission := by
  intro op s
  refine hostOp_notAdmitted_iff.trans ?_
  cases op with
  | reset => exact (not_congr admitted_reset).trans not_not
  | loadImage image => exact not_congr admitted_loadImage
  | run => exact not_congr admitted_run
  | inspect => exact (not_congr admitted_inspect).trans not_not

/-- Settles O34: the answer is the view of the state. -/
theorem inspectReadsEverything : Obligations.InspectReadsEverything :=
  fun s hs => ⟨s.view, hostOp_inspect hs, fun _ => rfl, s.view_cells_length, fun _ h => s.view_cells_getElem h, rfl, rfl⟩

/-- Settles O35: the first six steps only increment the PC, and the seventh faults at its operand fetch. -/
theorem runFromReset : Obligations.RunFromReset := by
  have hsix : runFor 6 State.reset.startRun = runningOverZeros 18 := runFor_reset le_rfl
  have hseven := runFor_succ_of_step (hsix ▸ step_runningOverZeros_eighteen)
  refine ⟨rfl, Memory.read_nil, fun k hk => ?_, ?_, ?_⟩
  · have hp := toNat_ofNat_three_mul hk.le
    rw [runFor_reset hk.le]
    exact ⟨(congrArg BitVec.toNat (runningOverZeros_pc _)).trans hp, atInstr_runningOverZeros (by omega)⟩
  · rw [hsix]
    rfl
  · exact ⟨_, ⟨rfl, 7, hseven, nofun⟩, rfl, rfl, rfl⟩

end Sys2Proof.Proofs
